-- ==== Sys2Proof/Word.lean ====
section
/-! DEFINITION. The machine word (R7, R13): 32 bits, bit i of weight 2^i (R11). -/

namespace Sys2Proof

/-- A memory word, an instruction word and a register are all exactly 32 bits (R7, R13). -/
abbrev Word := BitVec 32

end Sys2Proof
end

