-- ==== Sys2Proof/Config.lean ====
section
/-! DEFINITION. The parameters of the core (R6 to R9) and the two choices `State.reset` takes for the open ones. -/

namespace Sys2Proof

/-- MEM_SIZE, the number of words in the memory array: "legal values exactly 32 and 64" (R6). -/
inductive MemSize where
  | words32
  | words64
  deriving DecidableEq, Repr

/-- The number of words a memory size stands for (R6). -/
def MemSize.words : MemSize → Nat
  | .words32 => 32
  | .words64 => 64

/-- OPERAND_WIDTH (R8): operands lie in 0..8191. -/
def Config.operandWidth : Nat := 13

/-- OPCODE_WIDTH (R8): sixteen codes. -/
def Config.opcodeWidth : Nat := 4

/-- SYMTAB_CAPACITY of the assembler (R9, R87). -/
def Config.symtabCapacity : Nat := 100

/-- The memory size of `State.reset`. DESIGN CHOICE, unsafe for claims about `State.reset` (log entry 2): R6 leaves it to the host, 32 or 64;
`State.create` takes either and every statement is about both. -/
def Config.resetMemSize : MemSize := .words32

/-- XB_COUNT of `State.reset`. DESIGN CHOICE, safe for every observation (log entry 3): OPEN in R9; R33 says a model may take 0.
`State.create` takes any count. -/
def Config.resetXbCount : Nat := 0

end Sys2Proof
end

