-- ==== Sys2Proof/Syntax.lean ====
section
/-! DEFINITION. The sixteen instructions (R2, R75), one constructor per row of the opcode table. -/

namespace Sys2Proof

/-- An instruction with its operand field. The operand is the unsigned number `w[12:0]` (R72); that it is at
most 8191 is `Instr.wf`. STP carries the field it ignores (R160), so that decoding loses no operand bit. -/
inductive Instr where
  | jmp  (n : Nat)
  | jrp  (n : Nat)
  | ldn  (n : Nat)
  | sto  (n : Nat)
  | sub  (n : Nat)
  | sub2 (n : Nat)
  | cmp  (n : Nat)
  | stp  (n : Nat)
  | add  (n : Nat)
  | mul  (n : Nat)
  | div  (n : Nat)
  | and  (n : Nat)
  | or   (n : Nat)
  | xor  (n : Nat)
  | shl  (n : Nat)
  | shr  (n : Nat)
  deriving DecidableEq, Repr

/-- The operand field of an instruction (R72). -/
def Instr.operand : Instr → Nat
  | .jmp n => n
  | .jrp n => n
  | .ldn n => n
  | .sto n => n
  | .sub n => n
  | .sub2 n => n
  | .cmp n => n
  | .stp n => n
  | .add n => n
  | .mul n => n
  | .div n => n
  | .and n => n
  | .or n => n
  | .xor n => n
  | .shl n => n
  | .shr n => n

end Sys2Proof
end

