-- ==== Sys2Proof/WellFormed.lean ====
section
/-! DEFINITION. When an instruction is one the format can hold (R8, R70, R72). -/

namespace Sys2Proof

/-- "The operand field is 13 bits wide ..., so operand values lie in 0..8191" (R8). The format asks nothing else. -/
def Instr.wf (i : Instr) : Bool := i.operand < 2 ^ Config.operandWidth

end Sys2Proof
end

