-- ==== Sys2Proof/Decode.lean ====
section
/-! DEFINITION. The decoder (R70 to R74, R76) and the encoder (R80). No word is rejected: "Every 32-bit pattern
decodes to a pair" (R73) and all sixteen codes are assigned (R77). -/

namespace Sys2Proof

/-- `w[12:0]`, unsigned, bit 0 of weight 1 (R72). -/
def operandField (w : Word) : Nat := (w.extractLsb' 0 13).toNat

/-- `code(w) = 8*w[13] + 4*w[14] + 2*w[15] + 1*w[16]`: bit 13 is the most significant bit of the code (R71). -/
def codeField (w : Word) : Nat :=
  8 * (w.getLsbD 13).toNat + 4 * (w.getLsbD 14).toNat + 2 * (w.getLsbD 15).toNat + (w.getLsbD 16).toNat

/-- `Decode(w)` as the pair (code, operand) of R73. -/
def decodeFields (w : Word) : Nat × Nat := (codeField w, operandField w)

/-- The instruction a word decodes to (R73, R76). The four matched bits are w[13], w[14], w[15], w[16], in the order
of R76's column "text bits 13..16". Bits 17 to 31 are not read (R74). -/
def decode (w : Word) : Instr :=
  match w.getLsbD 13, w.getLsbD 14, w.getLsbD 15, w.getLsbD 16 with
  | false, false, false, false => .jmp (operandField w)
  | false, false, false, true  => .jrp (operandField w)
  | false, false, true,  false => .ldn (operandField w)
  | false, false, true,  true  => .sto (operandField w)
  | false, true,  false, false => .sub (operandField w)
  | false, true,  false, true  => .sub2 (operandField w)
  | false, true,  true,  false => .cmp (operandField w)
  | false, true,  true,  true  => .stp (operandField w)
  | true,  false, false, false => .add (operandField w)
  | true,  false, false, true  => .mul (operandField w)
  | true,  false, true,  false => .div (operandField w)
  | true,  false, true,  true  => .and (operandField w)
  | true,  true,  false, false => .or (operandField w)
  | true,  true,  false, true  => .xor (operandField w)
  | true,  true,  true,  false => .shl (operandField w)
  | true,  true,  true,  true  => .shr (operandField w)

/-- The code of each operation (R76): its position in the source's table, the spec's own decision D1 (UNVERIFIED,
unsafe, log entry 6). -/
def Instr.code : Instr → Nat
  | .jmp _  => 0
  | .jrp _  => 1
  | .ldn _  => 2
  | .sto _  => 3
  | .sub _  => 4
  | .sub2 _ => 5
  | .cmp _  => 6
  | .stp _  => 7
  | .add _  => 8
  | .mul _  => 9
  | .div _  => 10
  | .and _  => 11
  | .or _   => 12
  | .xor _  => 13
  | .shl _  => 14
  | .shr _  => 15

/-- `rev4(c)`: bit k of the result is bit 3 − k of `c` (R12). -/
def rev4 (c : Nat) : Nat := 8 * (c % 2) + 4 * (c / 2 % 2) + 2 * (c / 4 % 2) + c / 8 % 2

/-- `Encode(code, n)`, "numerically: n + rev4(code) * 2^13" (R80). -/
def encode (i : Instr) : Word := BitVec.ofNat 32 (i.operand + rev4 i.code * 2 ^ 13)

/-- STP's "fixed pattern" as the toolchain emits it, `Encode(7, 0)` (R81; decision D21, UNVERIFIED, safe but for STP's word, log entry 22). -/
def stpPattern : Word := encode (.stp 0)

/-- The data word of `VAR v`: `u32(v)` (R82). -/
def varWord (v : Int) : Word := BitVec.ofInt 32 v

/-- The decoder on a word given as the opcode table numbers its bits; every bit above `nbits` is 0. An instruction is
one 32-bit word, so a longer one does not exist (R79). -/
def decodeTableWord (nbits w : Nat) : Option Instr :=
  if nbits ≤ 32 then some (decode (BitVec.ofNat 32 (w % 2 ^ nbits))) else none

end Sys2Proof
end

