-- ==== Sys2Proof/Machine/State.lean ====
section
/-! DEFINITION. The state of the core (R20), the outputs of a step (R37, R38), and the state after reset (R230). -/

namespace Sys2Proof.Machine

/-- The memory array as a list of (word address, word), addresses strictly rising and no entry equal to the word an
unlisted address reads as (`Memory.wf`). The unit is the 32-bit word: "The core has no bytes" (R50, R52; DESIGN CHOICE,
safe, log entry 1). -/
abbrev Memory := List (Nat × Word)

/-- The controller state (R29). -/
inductive Ctrl where
  | running
  | halted
  | faulted
  deriving DecidableEq, Repr

/-- The addressing-mode selector: "Its only legal value is DIRECT, and it is hardwired" (R32; decision D11, UNVERIFIED, safe, log entry 13). -/
inductive AMode where
  | direct
  deriving DecidableEq, Repr

/-- The diagnostic event a step returns (R38; decision D17, UNVERIFIED, safe, log entry 15). -/
inductive Event where
  | none
  | skip
  | cmp (pc : Word) (a m : Int)
  | divZero (pc : Word)
  | halt (pc : Word)
  | fetchFault (pc : Word)
  deriving DecidableEq, Repr

/-- What one `step` returns to the host: `(ran_one_cycle, still_running)` (R37) and the event (R38). -/
structure StepReturn where
  ran : Bool
  stillRunning : Bool
  event : Event
  deriving DecidableEq, Repr

/-- The state record of R20, with the parameter MEM_SIZE that is "fixed when the state is created" (R230). The last
field is the model's own: what the last step returned, an output of the core that no rule reads (DESIGN CHOICE,
safe, log entry 4). -/
structure State where
  /-- MEM_SIZE (R6); it does not change during a run. -/
  memSize : MemSize
  /-- The memory array (R34). -/
  mem : Memory
  /-- The accumulator (R22). -/
  acc : Word
  /-- The program counter, an unsigned 32-bit word address (R24, R25; decision D13, UNVERIFIED, safe, log entry 14). -/
  pc : Word
  /-- The instruction register (R27). -/
  ir : Word
  /-- The controller state (R29). -/
  ctrl : Ctrl
  /-- The addressing-mode selector (R32). -/
  amode : AMode
  /-- The index/base registers, XB_COUNT of them (R33). -/
  xb : List Word
  /-- What the last step returned; none before the first step. -/
  ret : Option StepReturn
  deriving DecidableEq, Repr

/-- The ways a step stops with no next state. The faults of the spec are not among them: FETCH_RANGE is described
whole, so it is a next state with `ctrl` FAULTED (R203), and DIV_ZERO is an event (R200). -/
inductive Fault where
  /-- Raised by `memRead` and `memWrite` alone, on an address outside the memory array. R57 says they are never called
  with one, and no step raises it. Safe: the model stops where the spec gives no access (log entry 23). -/
  | memoryRange (address : Nat)
  deriving DecidableEq, Repr

/-- The ways the model declines an instruction. -/
inductive Refusal where
  /-- Raised by `exec` for an instruction that has no meaning yet; no arm does so now. Safe: the model stops. -/
  | notModelled (mnemonic : String)
  deriving DecidableEq, Repr

/-- The fresh state (R230) for a memory size (R6) and a count of index/base registers (R9). Zero for `acc`, `ir`,
`mem` and `xb` is the spec's own decision D10 (UNVERIFIED, unsafe, log entry 5); `ret` is the model's (DESIGN CHOICE, safe, log
entry 4). -/
def State.create (memSize : MemSize) (xbCount : Nat) : State where
  memSize := memSize
  mem := []
  acc := 0
  pc := 0
  ir := 0
  ctrl := .running
  amode := .direct
  xb := List.replicate xbCount 0
  ret := none

/-- The machine right after reset: the fresh state of R230 for the parameters of Config (log entries 2 and 3). -/
def State.reset : State := State.create Config.resetMemSize Config.resetXbCount

end Sys2Proof.Machine
end

