-- ==== Sys2Proof/Machine/Flags.lean ====
section
/-! DEFINITION. The one status flag (R31) and the error kinds with their numbers (R201). -/

namespace Sys2Proof.Machine

/-- "The source's running flag is the bit `running = (ctrl == RUNNING)`" (R29). It is the only flag: no condition
codes, carry, overflow, zero or negative flags exist, and no instruction sets one (R31). -/
def State.running (s : State) : Bool := s.ctrl == .running

/-- The error and fault kinds that can occur (R201). -/
inductive ErrorKind where
  | divZero
  | fetchRange
  | formatError
  deriving DecidableEq, Repr

/-- The spec's own numbers for the kinds (R201; decision D23, UNVERIFIED, safe but for STP's word, log entry 22). -/
def errorCode : ErrorKind → Nat
  | .divZero => 1
  | .fetchRange => 2
  | .formatError => 3

/-- Whether a kind ends the run (R201: only FETCH_RANGE is of class "fault, ends the run"). -/
def endsRun : ErrorKind → Bool
  | .divZero => false
  | .fetchRange => true
  | .formatError => false

/-- The kind an event reports, if it reports an error (R201, column "recorded"). -/
def errorOfEvent : Event → Option ErrorKind
  | .none => Option.none
  | .skip => Option.none
  | .cmp _ _ _ => Option.none
  | .divZero _ => some .divZero
  | .halt _ => Option.none
  | .fetchFault _ => some .fetchRange

end Sys2Proof.Machine
end

