-- ==== Sys2Proof/Machine/Memory.lean ====
section
/-! DEFINITION. The memory array as data: reading and writing one word, and its canonical form (R34, R60). -/

namespace Sys2Proof.Machine

/-- What an address that the list does not name reads as: "the reset value 0" (R34, R60; decision D10, UNVERIFIED, unsafe, log entry 5). -/
def Memory.unlisted : Word := 0

/-- The word at an address. The list is in rising order, so the search ends at the first larger address. -/
def Memory.read : Memory → Nat → Word
  | [], _ => Memory.unlisted
  | (b, v) :: m, a =>
    if a < b then Memory.unlisted else if a = b then v else Memory.read m a

/-- Replace the word at an address, keeping the canonical form: writing the unlisted word removes the entry. -/
def Memory.write : Memory → Nat → Word → Memory
  | [], a, w => if w = Memory.unlisted then [] else [(a, w)]
  | (b, v) :: m, a, w =>
    if a < b then
      if w = Memory.unlisted then (b, v) :: m else (a, w) :: (b, v) :: m
    else if a = b then
      if w = Memory.unlisted then m else (a, w) :: m
    else (b, v) :: Memory.write m a w

/-- The addresses of the list rise strictly. -/
def Memory.rising : Memory → Bool
  | [] => true
  | c :: m => m.all (fun d => c.1 < d.1) && Memory.rising m

/-- The canonical form for an array of `size` words: addresses below `size` (R34), strictly rising, and no entry equal
to what an unlisted address reads as. -/
def Memory.wf (size : Nat) (m : Memory) : Bool :=
  Memory.rising m && m.all (fun c => c.1 < size && c.2 != Memory.unlisted)

/-- Write a list of words to consecutive addresses from `a` on, in order. -/
def Memory.place (m : Memory) (a : Nat) : List Word → Memory
  | [] => m
  | w :: ws => Memory.place (Memory.write m a w) (a + 1) ws

end Sys2Proof.Machine
end

