-- ==== Sys2Proof/Machine/Ops.lean ====
section
/-! DEFINITION. The named operations over registers and memory that the instruction meanings and the controller share. -/

namespace Sys2Proof.Machine

/-- Everything a step or a meaning can answer. -/
abbrev Result := Host.Outcome State Fault Refusal

/-- `acc <- w` (R14). -/
def State.setAcc (s : State) (w : Word) : State := { s with acc := w }

/-- `pc <- target` (R14). -/
def State.setPc (s : State) (target : Word) : State := { s with pc := target }

/-- `ir <- w`; only the fetch does it (R27). -/
def State.setIr (s : State) (w : Word) : State := { s with ir := w }

/-- `ctrl <- c` (R29). -/
def State.setCtrl (s : State) (c : Ctrl) : State := { s with ctrl := c }

/-- Replace the memory array; only STO and `load` do it (R34). -/
def State.setMem (s : State) (m : Memory) : State := { s with mem := m }

/-- Place the step's return on the output (R37, R38; DESIGN CHOICE, safe, log entry 4). -/
def State.setRet (s : State) (r : StepReturn) : State := { s with ret := some r }

/-- `MemRead(a, 1)`, defined for 0 ≤ a < MEM_SIZE (R14, R57). -/
def State.memRead (s : State) (a : Nat) : Option Word :=
  if a < s.memSize.words then some (Memory.read s.mem a) else none

/-- `MemWrite(a, 1, w)`, defined for 0 ≤ a < MEM_SIZE (R14, R57). -/
def State.memWrite (s : State) (a : Nat) (w : Word) : Option State :=
  if a < s.memSize.words then some (s.setMem (Memory.write s.mem a w)) else none

/-- The end of a step that ran a cycle: `return (s, true, s.ctrl == RUNNING, ev)` (R109). -/
def State.report (s : State) (ev : Event) : State :=
  s.setRet { ran := true, stillRunning := s.running, event := ev }

/-- The end of an operation rule that did not write `pc`: `pc <- pc + 1`, then the return (R108, R109). -/
def retire (s : State) (ev : Event) : Result := .next ((s.setPc (s.pc + 1)).report ev)

/-- The end of an operation rule that wrote `pc`: no increment, then the return (R108, R109). -/
def retireAt (s : State) (target : Word) (ev : Event) : Result := .next ((s.setPc target).report ev)

/-- Fault entry, `raise Fault(FETCH_RANGE, pc)` (R101, R203; decision D6, UNVERIFIED, unsafe, log entry 10): `ctrl <- FAULTED`, the event
`FetchFault(pc)`, and nothing else. It is the only fault entry of the core. There is no handler and no vector (R207) and
no return from it (R208). The step returns (false, false): no cycle was performed (R109). -/
def raiseFetchRange (s : State) : Result :=
  .next ((s.setCtrl .faulted).setRet { ran := false, stillRunning := false, event := .fetchFault s.pc })

/-- A step on a state that is not RUNNING changes nothing and returns (false, false, None) (R37; decision D16, UNVERIFIED, safe, log
entry 15). -/
def idle (s : State) : Result := .next (s.setRet { ran := false, stillRunning := false, event := .none })

/-- The fetch, `ir <- MemRead(pc, 1)` (R100). It does not change `pc`. -/
def fetch (s : State) : Option State := (s.memRead s.pc.toNat).map s.setIr

/-- The address-0 skip: `pc <- 1`, event `Skip`, nothing executed (R102; decisions D7 and D8, UNVERIFIED, unsafe, log entry 11). -/
def skipZero (s : State) : Result := .next ((s.setPc 1).report .skip)

/-- The host's means to have the very next step run one word (DESIGN CHOICE, safe, log entry 18): the word is stored at `pc` when an
instruction is executed from there, and at address 1 otherwise, with `pc` moved there and `ctrl` RUNNING. A fetch at
address 0 executes nothing (R102), one at or above MEM_SIZE faults (R101). -/
def State.placeInstruction (s : State) (w : Word) : State :=
  let target : Word := if s.pc = 0 ∨ s.memSize.words ≤ s.pc.toNat then 1 else s.pc
  ((s.setMem (Memory.write s.mem target.toNat w)).setPc target).setCtrl .running

end Sys2Proof.Machine
end

