-- ==== Sys2Proof/Machine/Operands.lean ====
section
/-! DEFINITION. Operand resolution: the addressing-mode selector (R104), the memory operand (R105), the shift count
(R173, R174), and the shape shared by the instructions that combine the accumulator with a memory operand. -/

namespace Sys2Proof.Machine

/-- `EA(n)`: the addressing-mode selector; DIRECT gives `n mod MEM_SIZE` (R104). -/
def effectiveAddress (s : State) (n : Nat) : Nat :=
  match s.amode with
  | .direct => n % s.memSize.words

/-- Read the memory operand once, in the execute stage, and go on with it (R105). The fault arm is R57's range check;
no effective address reaches it. -/
def withOperand (n : Nat) (s : State) (go : Word → Result) : Result :=
  match s.memRead (effectiveAddress s n) with
  | some w => go w
  | none => .fault (.memoryRange (effectiveAddress s n))

/-- The shift count `k = W[4:0]`, 0..31 (R173, R174; decision D5, UNVERIFIED, unsafe, log entry 9). -/
def shiftCount (w : Word) : Nat := (w.extractLsb' 0 5).toNat

/-- The shape of LDN and of every accumulator operation but DIV: `acc <- f acc W`, event None, `pc <- pc + 1`. -/
def accumulate (f : Word → Word → Word) (n : Nat) (s : State) : Result :=
  withOperand n s fun w => retire (s.setAcc (f s.acc w)) .none

end Sys2Proof.Machine
end

