-- ==== Sys2Proof/Machine/Alu.lean ====
section
/-! DEFINITION. The arithmetic: "computed exactly on the mathematical integers A and M and then reduced by u32" (R146;
decisions D2 and D3, UNVERIFIED, unsafe, log entry 7). -/

namespace Sys2Proof.Machine

/-- `s32(w)`, the signed value of a word (R13, R53). -/
def s32 (w : Word) : Int := w.toInt

/-- `u32(v)`, the word whose unsigned value is v mod 2^32 (R13). -/
def u32 (v : Int) : Word := BitVec.ofInt 32 v

/-- `u32(-M)` (R130). -/
def negWord (m : Word) : Word := u32 (-s32 m)

/-- `u32(A - M)` (R140). -/
def subWord (a m : Word) : Word := u32 (s32 a - s32 m)

/-- `u32(A + M)` (R143). -/
def addWord (a m : Word) : Word := u32 (s32 a + s32 m)

/-- `u32(A * M)`: the low 32 bits of the exact product (R144). -/
def mulWord (a m : Word) : Word := u32 (s32 a * s32 m)

/-- `u32(trunc(A / M))`, the quotient rounded toward zero, for M ≠ 0 (R145, R147; decision D4, UNVERIFIED, unsafe, log entry 8). -/
def divWord (a m : Word) : Word := u32 ((s32 a).tdiv (s32 m))

/-- `u32(zext(acc) * 2^k)`, k = W[4:0] (R173). -/
def shlWord (a w : Word) : Word := u32 ((a.toNat : Int) * 2 ^ shiftCount w)

/-- `u32(floor(A / 2^k))`, k = W[4:0]: the arithmetic shift (R174). -/
def shrWord (a w : Word) : Word := u32 ((s32 a).fdiv (2 ^ shiftCount w))

end Sys2Proof.Machine
end

