-- ==== Sys2Proof/Machine/Arithmetic.lean ====
section
/-! DEFINITION. SUB, SUB2, CMP, ADD, MUL and DIV (43_arithmetic.md). -/

namespace Sys2Proof.Machine

/-- SUB: `acc <- u32(A - M)` (R140). -/
def execSub (n : Nat) (s : State) : Result := accumulate subWord n s

/-- SUB2: the second subtract code, exactly as SUB (R141). -/
def execSub2 (n : Nat) (s : State) : Result := accumulate subWord n s

/-- CMP: `emit Cmp(pc, A, M)`, no other effect and no skip (R142; decision D18, UNVERIFIED, unsafe, log entry 16). -/
def execCmp (n : Nat) (s : State) : Result :=
  withOperand n s fun m => retire s (.cmp s.pc (s32 s.acc) (s32 m))

/-- ADD: `acc <- u32(A + M)` (R143). -/
def execAdd (n : Nat) (s : State) : Result := accumulate addWord n s

/-- MUL: `acc <- u32(A * M)` (R144). -/
def execMul (n : Nat) (s : State) : Result := accumulate mulWord n s

/-- DIV: a zero divisor leaves `acc` and reports `DivZero(pc)`; otherwise `acc <- u32(trunc(A / M))`. Both advance `pc`
(R145, R200). -/
def execDiv (n : Nat) (s : State) : Result :=
  withOperand n s fun m =>
    if s32 m = 0 then retire s (.divZero s.pc) else retire (s.setAcc (divWord s.acc m)) .none

end Sys2Proof.Machine
end

