-- ==== Sys2Proof/Machine/ControlTransfer.lean ====
section
/-! DEFINITION. JMP and JRP (41_control_transfer.md). -/

namespace Sys2Proof.Machine

/-- JMP: `pc <- n`, not reduced modulo MEM_SIZE (R120). -/
def execJmp (n : Nat) (s : State) : Result := retireAt s (BitVec.ofNat 32 n) .none

/-- JRP: `pc <- pc + n`, an unsigned forward displacement from the JRP's own address (R121). The sum of an executing
address and a 13-bit operand is at most 8254, so the 32-bit register never wraps (R25; DEDUCED, safe, log entry 14). -/
def execJrp (n : Nat) (s : State) : Result := retireAt s (s.pc + BitVec.ofNat 32 n) .none

end Sys2Proof.Machine
end

