-- ==== Sys2Proof/Machine/LoadStore.lean ====
section
/-! DEFINITION. LDN and STO (42_load_store.md). -/

namespace Sys2Proof.Machine

/-- LDN: `acc <- u32(-M)`; the previous accumulator is not read (R130). -/
def execLdn (n : Nat) (s : State) : Result := accumulate (fun _ m => negWord m) n s

/-- STO: `MemWrite(EA, 1, acc)`, all 32 bits unchanged (R131). The fault arm is R57's range check; no effective address
reaches it. -/
def execSto (n : Nat) (s : State) : Result :=
  match s.memWrite (effectiveAddress s n) s.acc with
  | some t => retire t .none
  | none => .fault (.memoryRange (effectiveAddress s n))

end Sys2Proof.Machine
end

