-- ==== Sys2Proof/Machine/LogicShift.lean ====
section
/-! DEFINITION. AND, OR, XOR, SHL and SHR (45_logic_shift.md). -/

namespace Sys2Proof.Machine

/-- AND, bit by bit (R170). -/
def execAnd (n : Nat) (s : State) : Result := accumulate (fun a w => a &&& w) n s

/-- OR, bit by bit (R171). -/
def execOr (n : Nat) (s : State) : Result := accumulate (fun a w => a ||| w) n s

/-- XOR, bit by bit (R172). -/
def execXor (n : Nat) (s : State) : Result := accumulate (fun a w => a ^^^ w) n s

/-- SHL: `acc <- u32(zext(acc) * 2^k)` (R173). -/
def execShl (n : Nat) (s : State) : Result := accumulate shlWord n s

/-- SHR: `acc <- u32(floor(A / 2^k))`, arithmetic (R174). -/
def execShr (n : Nat) (s : State) : Result := accumulate shrWord n s

end Sys2Proof.Machine
end

