-- ==== Sys2Proof/Machine/Stop.lean ====
section
/-! DEFINITION. STP, the only system instruction (44_halt.md). -/

namespace Sys2Proof.Machine

/-- STP: `ctrl <- HALTED`, event `Halt(pc)`, and the general `pc <- pc + 1` (R160; decision D9, UNVERIFIED, unsafe, log entry 12). The
operand field is ignored. -/
def execStp (_n : Nat) (s : State) : Result := retire (s.setCtrl .halted) (.halt s.pc)

end Sys2Proof.Machine
end

