-- ==== Sys2Proof/Machine/Dispatch.lean ====
section
/-! DEFINITION. The opcode dispatch (R106): one operation rule per instruction, and none missing (R107). -/

namespace Sys2Proof.Machine

/-- `Op[code](s, n)` with the program-counter advance and the step's return (R106, R108, R109). -/
def exec (i : Instr) (s : State) : Host.Outcome State Fault Refusal :=
  match i with
  | .jmp n => Sys2Proof.Machine.execJmp n s
  | .jrp n => Sys2Proof.Machine.execJrp n s
  | .ldn n => Sys2Proof.Machine.execLdn n s
  | .sto n => Sys2Proof.Machine.execSto n s
  | .sub n => Sys2Proof.Machine.execSub n s
  | .sub2 n => Sys2Proof.Machine.execSub2 n s
  | .cmp n => Sys2Proof.Machine.execCmp n s
  | .stp n => Sys2Proof.Machine.execStp n s
  | .add n => Sys2Proof.Machine.execAdd n s
  | .mul n => Sys2Proof.Machine.execMul n s
  | .div n => Sys2Proof.Machine.execDiv n s
  | .and n => Sys2Proof.Machine.execAnd n s
  | .or n => Sys2Proof.Machine.execOr n s
  | .xor n => Sys2Proof.Machine.execXor n s
  | .shl n => Sys2Proof.Machine.execShl n s
  | .shr n => Sys2Proof.Machine.execShr n s

end Sys2Proof.Machine
end

