-- ==== Sys2Proof/Machine/Cycle.lean ====
section
/-! DEFINITION. One controller cycle, the function of R109. -/

namespace Sys2Proof.Machine

/-- After a successful fetch: the address-0 skip (R102), or decode and execute (R103, R106). -/
def afterFetch (s : State) : Result :=
  if s.pc = 0 then skipZero s else exec (decode s.ir) s

/-- `step(s)` of R109, its checks in the order R206 fixes: not RUNNING, fetch range, the skip, the operation. The fault
arm is R57's range check; the fetch is only due below MEM_SIZE. -/
def cycle (s : State) : Result :=
  if s.ctrl ≠ .running then idle s
  else if s.memSize.words ≤ s.pc.toNat then raiseFetchRange s
  else
    match fetch s with
    | some t => afterFetch t
    | none => .fault (.memoryRange s.pc.toNat)

end Sys2Proof.Machine
end

