-- ==== Sys2Proof/Machine/Step.lean ====
section
/-! DEFINITION. The step the host calls (R37), and where it fetches from. -/

namespace Sys2Proof.Machine

/-- `step()`: one controller cycle, atomically (R37, R109). -/
def step (s : State) : Host.Outcome State Fault Refusal := cycle s

/-- The state whose very next step fetches and runs the word `w` (its bits above `nbits` zero); see
`State.placeInstruction` and log entry 18. -/
def State.withFetchWord (s : State) (nbits w : Nat) : State :=
  s.placeInstruction (BitVec.ofNat 32 (w % 2 ^ nbits))

end Sys2Proof.Machine
end

