-- ==== Sys2Proof/Machine/Text.lean ====
section
/-! DEFINITION. The text form of a word and of a machine-code file (R11, R83, R234): character j of a line is bit j. -/

namespace Sys2Proof.Machine

/-- The character of one bit. -/
def charOfBit (b : Bool) : Char := if b then '1' else '0'

/-- The bit of one character; any character but `0` and `1` has none (R234). -/
def bitOfChar (c : Char) : Option Bool :=
  if c = '0' then some false else if c = '1' then some true else none

/-- The `count` characters of a word from bit `start` on, in rising bit order. -/
def bitsText (w : Word) (start : Nat) : Nat → List Char
  | 0 => []
  | count + 1 => charOfBit (w.getLsbD start) :: bitsText w (start + 1) count

/-- A word serialised: 32 characters, bit 0 leftmost (R83). -/
def wordText (w : Word) : List Char := bitsText w 0 32

/-- The number a text of bits stands for: the leftmost character has weight 1 (R11). -/
def bitsValue : List Char → Option Nat
  | [] => some 0
  | c :: cs =>
    match bitOfChar c, bitsValue cs with
    | some b, some v => some (b.toNat + 2 * v)
    | _, _ => none

/-- One line of a machine-code file: exactly 32 characters, each `0` or `1` (R234). -/
def parseLine (line : List Char) : Option Word :=
  if line.length = 32 then (bitsValue line).map (BitVec.ofNat 32) else none

/-- The lines of a text: each ends at a line feed, and a last line without its line feed is a line too. An empty text has
no lines. For a machine-code file R234 and R235 say so. For a source file R85 says "line-oriented" and names no terminator:
there it is the model's (DESIGN CHOICE, unsafe for claims about such a source only, log entry 21). -/
def splitLines : List Char → List (List Char)
  | [] => []
  | c :: cs =>
    if c = '\n' then [] :: splitLines cs
    else
      match splitLines cs with
      | [] => [[c]]
      | line :: rest => (c :: line) :: rest

/-- A machine-code file: one 32-character line with its terminator for each word, in address order (R90, R234). R90 names
no terminator: the line feed, which is R234's, is the model's choice there (DESIGN CHOICE, log entry 21). -/
def fileText : List Word → List Char
  | [] => []
  | w :: ws => wordText w ++ '\n' :: fileText ws

/-- Read every line, or fail if any line fails (R234). -/
def parseLines : List (List Char) → Option (List Word)
  | [] => some []
  | l :: ls =>
    match parseLine l, parseLines ls with
    | some w, some ws => some (w :: ws)
    | _, _ => none

end Sys2Proof.Machine
end

