-- ==== Sys2Proof/Machine/Assembler.lean ====
section
/-! DEFINITION. The assembler (R81, R82, R85 to R90): toolchain, a pure function from source text to the machine-code
file. Its file I/O is out of scope (R5). Corner cases follow 92_eei_decisions.md D22 (UNVERIFIED, log entry
20) and, where the spec says nothing, log entry 21 (DESIGN CHOICE); both unsafe for claims about such a source only. -/

namespace Sys2Proof.Machine

/-- Why assembly fails (R87, R88, R90, D22). -/
inductive AsmError where
  | undefinedSymbol (name : List Char)
  | duplicateLabel (name : List Char)
  | tableFull
  | unknownMnemonic (name : List Char)
  | operandRange
  | operandMissing
  deriving DecidableEq, Repr

/-- The error kinds the spec names: SymbolError, OpcodeError, OperandRangeError, OperandMissingError. -/
inductive AsmErrorKind where
  | symbolError
  | opcodeError
  | operandRangeError
  | operandMissingError
  deriving DecidableEq, Repr

/-- The kind of each failure (R87, R88, R90). -/
def asmErrorKind : AsmError → AsmErrorKind
  | .undefinedSymbol _ => .symbolError
  | .duplicateLabel _ => .symbolError
  | .tableFull => .symbolError
  | .unknownMnemonic _ => .opcodeError
  | .operandRange => .operandRangeError
  | .operandMissing => .operandMissingError

/-- The symbol table: names and the addresses they are bound to (R86, R87). -/
abbrev SymbolTable := List (List Char × Nat)

/-- White space is Lean's `Char.isWhitespace`: space, tab, CR, LF (log entry 21). -/
def trimLeft (t : List Char) : List Char := t.dropWhile Char.isWhitespace

/-- A text without white space at either end. -/
def trim (t : List Char) : List Char := (trimLeft (trimLeft t).reverse).reverse

/-- A line without its comment: "A `;` starts a comment that runs to the end of the line" (R85). -/
def stripComment (line : List Char) : List Char := line.takeWhile (· ≠ ';')

/-- The lines that take an address: comments stripped first, then blank lines dropped (R85). What ends a source line R85
does not say: the model ends one at a line feed only, counts a last line that has none, and trims a carriage return before
the line feed away as white space (DESIGN CHOICE, unsafe for claims about such a source only, log entry 21). -/
def addressedLines (source : List Char) : List (List Char) :=
  ((splitLines source).map fun l => trim (stripComment l)).filter (· ≠ [])

/-- The label a line opens with and the rest of the line. The candidate is the text before the first `:`, trimmed; it is
a label if it is non-empty and not literally `VAR` (R86). A line with another candidate keeps its whole text, the colon
included (DESIGN CHOICE, unsafe for claims about such a line only, log entry 21). -/
def splitLabel (line : List Char) : Option (List Char) × List Char :=
  match line.dropWhile (· ≠ ':') with
  | [] => (none, line)
  | _ :: rest =>
    let name := trim (line.takeWhile (· ≠ ':'))
    if name = [] ∨ name = "VAR".toList then (none, line) else (some name, rest)

/-- The address a name is bound to. -/
def lookupSymbol (name : List Char) : SymbolTable → Option Nat
  | [] => none
  | (n, a) :: table => if n = name then some a else lookupSymbol name table

/-- Pass 1 from address `address` on: bind each label to the address of its line (R86); a duplicate name or a 101st entry
aborts (R87). A name that is both is reported as a duplicate (log entry 21). -/
def passOne : List (List Char) → Nat → SymbolTable → Except AsmError SymbolTable
  | [], _, table => .ok table
  | line :: lines, address, table =>
    match (splitLabel line).1 with
    | none => passOne lines (address + 1) table
    | some name =>
      if (lookupSymbol name table).isSome then .error (.duplicateLabel name)
      else if Config.symtabCapacity ≤ table.length then .error .tableFull
      else passOne lines (address + 1) (table ++ [(name, address)])

/-- The value of a decimal digit. -/
def digitValue (c : Char) : Nat := c.toNat - '0'.toNat

/-- A "purely numeric" text as a non-negative decimal number (R88); none for any other text and for the empty one. -/
def parseNat (t : List Char) : Option Nat :=
  if t ≠ [] ∧ t.all Char.isDigit then some (t.foldl (fun v c => 10 * v + digitValue c) 0) else none

/-- A decimal number with an optional leading `-` (D22 (a)). -/
def parseInt (t : List Char) : Option Int :=
  match t with
  | '-' :: digits => (parseNat digits).map fun v => -(v : Int)
  | _ => (parseNat t).map fun v => (v : Int)

/-- The instruction a mnemonic names, with its operand; case-sensitive, upper-case (R88, D22 (c)). -/
def instrOfMnemonic (mnemonic : List Char) : Option (Nat → Instr) :=
  if mnemonic = "JMP".toList then some .jmp
  else if mnemonic = "JRP".toList then some .jrp
  else if mnemonic = "LDN".toList then some .ldn
  else if mnemonic = "STO".toList then some .sto
  else if mnemonic = "SUB".toList then some .sub
  else if mnemonic = "SUB2".toList then some .sub2
  else if mnemonic = "CMP".toList then some .cmp
  else if mnemonic = "ADD".toList then some .add
  else if mnemonic = "MUL".toList then some .mul
  else if mnemonic = "DIV".toList then some .div
  else if mnemonic = "AND".toList then some .and
  else if mnemonic = "OR".toList then some .or
  else if mnemonic = "XOR".toList then some .xor
  else if mnemonic = "SHL".toList then some .shl
  else if mnemonic = "SHR".toList then some .shr
  else none

/-- The number an instruction operand stands for: a decimal literal, or the address of a label (R88). -/
def resolveOperand (table : SymbolTable) (operand : List Char) : Except AsmError Nat :=
  match parseNat operand with
  | some v => .ok v
  | none =>
    match lookupSymbol operand table with
    | some a => .ok a
    | none => .error (.undefinedSymbol operand)

/-- The number a VAR operand stands for: a decimal literal with an optional sign, or the address of a label (R82,
D22 (a) and (g)). -/
def resolveVar (table : SymbolTable) (operand : List Char) : Except AsmError Int :=
  match parseInt operand with
  | some v => .ok v
  | none =>
    match lookupSymbol operand table with
    | some a => .ok a
    | none => .error (.undefinedSymbol operand)

/-- The word of one line after its label prefix is removed: `MNEMONIC [operand]`, a VAR word, STP's fixed pattern, or the
all-zero word for a line with a label and no mnemonic (R81, R82, R88, R89, D22). A line that kept its colon because the
text before it is empty or `VAR` comes here whole, and R86 and R88 do not say what it is: `: STP` and `VAR: 5` have no known
mnemonic (OpcodeError); `VAR : 5`, with white space before the colon, is `VAR` with the operand `: 5`, which no literal
and no label is (SymbolError). DESIGN CHOICE, unsafe for claims about such a line only, log entry 21. -/
def assembleLine (table : SymbolTable) (line : List Char) : Except AsmError Word :=
  let body := trim line
  let mnemonic := body.takeWhile (fun c => !c.isWhitespace)
  let operand := trim (body.dropWhile (fun c => !c.isWhitespace))
  if body = [] then .ok 0
  else if mnemonic = "STP".toList then .ok stpPattern
  else if mnemonic = "VAR".toList then
    if operand = [] then .error .operandMissing
    else
      match resolveVar table operand with
      | .ok v => if -(2 ^ 31) ≤ v ∧ v < 2 ^ 31 then .ok (varWord v) else .error .operandRange
      | .error e => .error e
  else
    match instrOfMnemonic mnemonic with
    | none => .error (.unknownMnemonic mnemonic)
    | some op =>
      if operand = [] then .error .operandMissing
      else
        match resolveOperand table operand with
        | .ok n => if (op n).wf then .ok (encode (op n)) else .error .operandRange
        | .error e => .error e

/-- Pass 2: one word for each line that takes an address, in source order; any failure aborts the pass (R90). -/
def passTwo (table : SymbolTable) : List (List Char) → Except AsmError (List Word)
  | [] => .ok []
  | line :: lines =>
    match assembleLine table (splitLabel line).2 with
    | .error e => .error e
    | .ok w =>
      match passTwo table lines with
      | .error e => .error e
      | .ok ws => .ok (w :: ws)

/-- The words a source assembles to; the first is the word for address 0 (R90). -/
def assembleWords (source : List Char) : Except AsmError (List Word) :=
  match passOne (addressedLines source) 0 [] with
  | .error e => .error e
  | .ok table => passTwo table (addressedLines source)

/-- `assemble`: the machine-code file of a source, or why it fails; no partial output is valid (R90). -/
def assemble (source : List Char) : Except AsmError (List Char) :=
  match assembleWords source with
  | .ok ws => .ok (fileText ws)
  | .error e => .error e

end Sys2Proof.Machine
end

