-- ==== Sys2Proof/Reference.lean ====
section
/-! DEFINITION. A second reading of the controller, for the refinement statement only: R109 as one function over a flat
machine, memory as a function, `pc` a number, dispatch by the numeric code of R76, the arithmetic as 32-bit vector
operations instead of exact integers. The machine does not use it. -/

namespace Sys2Proof.Reference

open Sys2Proof.Machine

/-- The flat machine. -/
structure Baby where
  size : Nat
  mem : Nat → Word
  acc : Word
  pc : Nat
  ir : Word
  ctrl : Ctrl

/-- `Op[code](s, n)`: the new state, the event, and whether `pc` was written (R106, R120 to R174). Codes are 0..15. -/
def op (code n : Nat) (b : Baby) : Baby × Event × Bool :=
  let m := b.mem (n % b.size)
  let here : Word := BitVec.ofNat 32 b.pc
  let put (w : Word) : Baby × Event × Bool := ({ b with acc := w }, .none, false)
  match code with
  | 0 => ({ b with pc := n }, .none, true)
  | 1 => ({ b with pc := b.pc + n }, .none, true)
  | 2 => put (-m)
  | 3 => ({ b with mem := fun a => if a = n % b.size then b.acc else b.mem a }, .none, false)
  | 4 => put (b.acc - m)
  | 5 => put (b.acc - m)
  | 6 => (b, .cmp here b.acc.toInt m.toInt, false)
  | 7 => ({ b with ctrl := .halted }, .halt here, false)
  | 8 => put (b.acc + m)
  | 9 => put (b.acc * m)
  | 10 => if m = 0 then (b, .divZero here, false) else put (b.acc.sdiv m)
  | 11 => put (b.acc &&& m)
  | 12 => put (b.acc ||| m)
  | 13 => put (b.acc ^^^ m)
  | 14 => put (b.acc <<< (m.toNat % 32))
  | 15 => put (b.acc.sshiftRight (m.toNat % 32))
  | _ => (b, .none, false)

/-- `step(s)`, line by line as R109 writes it. -/
def step (b : Baby) : Baby × StepReturn :=
  if b.ctrl ≠ .running then (b, { ran := false, stillRunning := false, event := .none })
  else if b.pc ≥ b.size then
    ({ b with ctrl := .faulted },
      { ran := false, stillRunning := false, event := .fetchFault (BitVec.ofNat 32 b.pc) })
  else
    let f : Baby := { b with ir := b.mem b.pc }
    if f.pc = 0 then ({ f with pc := 1 }, { ran := true, stillRunning := true, event := .skip })
    else
      let r := op (codeField f.ir) (operandField f.ir) f
      let t : Baby := if r.2.2 then r.1 else { r.1 with pc := r.1.pc + 1 }
      (t, { ran := true, stillRunning := t.ctrl == .running, event := r.2.1 })

/-- The flat machine a state of the model stands for. -/
def flat (s : State) : Baby where
  size := s.memSize.words
  mem := Memory.read s.mem
  acc := s.acc
  pc := s.pc.toNat
  ir := s.ir
  ctrl := s.ctrl

end Sys2Proof.Reference
end

