-- ==== Sys2Proof/Machine/Load.lean ====
section
/-! DEFINITION. The host's load operation (R36, R232 to R235). -/

namespace Sys2Proof.Machine

/-- What `load` answers. A failure carries no state: the host's state is unchanged (R234). -/
inductive LoadResult where
  /-- The file was written to memory. -/
  | success (s : State)
  /-- FormatError: a line of a wrong length or with a wrong character, or too many lines (R234). -/
  | formatError
  /-- The model declines a `load` on a state that is not fresh: "load only on a fresh state" (decision D15 of R36 and
  R232, log entry 17). Safe: the spec gives such a load no meaning. -/
  | notFresh
  deriving DecidableEq, Repr

/-- Whether a state is one that creation gives, the index/base registers aside, which no interface operation reads (R33):
nothing stepped and nothing loaded (R232; DESIGN CHOICE, safe, log entry 17). -/
def State.isFresh (s : State) : Bool := s = { State.create s.memSize 0 with xb := s.xb }

/-- The words of a machine-code file for an array of `size` words; none is FormatError (R234; decision
D14, UNVERIFIED, unsafe for files it accepts, log entry 17). -/
def parseFile (size : Nat) (file : List Char) : Option (List Word) :=
  match parseLines (splitLines file) with
  | some ws => if ws.length ≤ size then some ws else none
  | none => none

/-- `load`: check every line, then write line k to `mem[k]`; it writes no register (R36, R234, R235). -/
def load (file : List Char) (s : State) : LoadResult :=
  if s.isFresh then
    match parseFile s.memSize.words file with
    | some ws => .success (s.setMem (Memory.place s.mem 0 ws))
    | none => .formatError
  else .notFresh

end Sys2Proof.Machine
end

