-- ==== Sys2Proof/Machine/HostRun.lean ====
section
/-! DEFINITION. What the host does with the core: repeat `step` (R110), count what ran (R111), and the states it can
bring about (R232). -/

namespace Sys2Proof.Machine

/-- Whether the last step said the host may go on: "until `still_running` is false" (R37). -/
def State.mayContinue (s : State) : Bool :=
  match s.ret with
  | some r => r.stillRunning
  | none => s.running

/-- The host's run: repeat `step` until it returns `still_running` = false, at most `maxCycles` times (R110).
MAX_CYCLES is OPEN and the host's, so it is an argument (R9; decision D19, UNVERIFIED, safe, log entry 19); stopping at it leaves the
core as it is. -/
def hostRun : Nat → State → Result
  | 0, s => .next s
  | maxCycles + 1, s =>
    match step s with
    | .next t => if t.mayContinue then hostRun maxCycles t else .next t
    | .fault f => .fault f
    | .refused r => .refused r

/-- The returns the host collects in that run, one for each step. -/
def hostTrace : Nat → State → List StepReturn
  | 0, _ => []
  | maxCycles + 1, s =>
    match step s with
    | .next t =>
      match t.ret with
      | some r => r :: (if t.mayContinue then hostTrace maxCycles t else [])
      | none => []
    | .fault _ => []
    | .refused _ => []

/-- "The number of instructions a run executes is ... the number of steps that return `ran` = true, less the number of
`Skip` events" (R111). -/
def instructionsExecuted (trace : List StepReturn) : Nat :=
  trace.countP (fun r => r.ran) - trace.countP (fun r => r.event = .skip)

/-- Whether a step at this state executes an instruction: RUNNING, and `pc` neither 0 nor outside memory (R109). -/
def State.executesNext (s : State) : Bool :=
  s.running && decide (s.pc ≠ 0) && decide (s.pc.toNat < s.memSize.words)

/-- The number of states at which that run executes an instruction. -/
def executingStates : Nat → State → Nat
  | 0, _ => 0
  | maxCycles + 1, s =>
    s.executesNext.toNat +
      match step s with
      | .next t => if t.mayContinue then executingStates maxCycles t else 0
      | .fault _ => 0
      | .refused _ => 0

end Sys2Proof.Machine
end

