-- ==== Sys2Proof/Safety.lean ====
section
/-! DEFINITION. What the statements call a sound state, a reachable state, and equal but for what no rule reads. -/

namespace Sys2Proof.Machine

/-- The invariant of the core: memory is in its canonical form (so it holds words at addresses below MEM_SIZE only,
R34), `pc` is at most 8254 (R25), the addressing mode is DIRECT (R32), and the `still_running` last returned agrees with
`ctrl` (R37, R109). -/
structure State.Inv (s : State) : Prop where
  memory : Memory.wf s.memSize.words s.mem = true
  pcBound : s.pc.toNat ≤ 8254
  mode : s.amode = .direct
  returned : ∀ r, s.ret = some r → r.stillRunning = s.running

/-- The states the host can bring about: create, load, step (R232). -/
inductive Reachable : State → Prop where
  | create (m : MemSize) (xbCount : Nat) : Reachable (State.create m xbCount)
  | load {s t : State} (file : List Char) : Reachable s → load file s = .success t → Reachable t
  | step {s t : State} : Reachable s → step s = .next t → Reachable t

/-- A safe run never faults: no state it reaches has `ctrl` FAULTED (R203). -/
def State.safe (s : State) : Prop := s.ctrl ≠ .faulted

/-- Equal in everything an observation of the run can show: all but `ir`, the index/base registers and the last return,
which no rule reads before it is overwritten (R28, R33, R38). -/
structure State.AgreesWith (s t : State) : Prop where
  memSize : s.memSize = t.memSize
  mem : s.mem = t.mem
  acc : s.acc = t.acc
  pc : s.pc = t.pc
  ctrl : s.ctrl = t.ctrl
  amode : s.amode = t.amode

end Sys2Proof.Machine
end

