-- ==== Sys2Proof/Certificates/Slice0/Obligations.lean ====
section
/-! DEFINITION. The statements for the provers. The helpers of `Claims` say what several statements share, in the spec's
terms and not through the meanings' own helpers. Decisions D<n> are the spec's own (92_eei_decisions.md); where a statement
rests on one, its docstring names it and the log entry. -/

namespace Sys2Proof.Claims

open Sys2Proof.Machine

/-- The memory operand word: the word at `n mod MEM_SIZE` (R104, R105). -/
def operandWord (s : State) (n : Nat) : Word := Memory.read s.mem (n % s.memSize.words)

/-- The return of a step that ran a cycle and left the controller in `c` (R109). -/
def returned (c : Ctrl) (ev : Event) : Option StepReturn :=
  some { ran := true, stillRunning := c == .running, event := ev }

/-- The encoding an operation rule gives: its code, and exactly the words `w` with `w AND 0x1E000 = match` are its words,
with operand `w[12:0]` (R76, decision D1, log entry 6). -/
def HasEncoding (op : Nat → Instr) (code : Nat) (bits : Word) : Prop :=
  (∀ n, (op n).code = code) ∧
    ∀ w : Word, w &&& 0x1E000#32 = bits ↔ decode w = op (w.toNat % 2 ^ 13)

/-- Everything but the accumulator, `pc` and the return is as before: every word of memory, `ir`, the controller state, the
selector, the index/base registers and MEM_SIZE. -/
def OnlyAccChanges (s t : State) : Prop :=
  (∀ a, Memory.read t.mem a = Memory.read s.mem a) ∧ t.ir = s.ir ∧ t.ctrl = s.ctrl ∧ t.amode = s.amode ∧
    t.xb = s.xb ∧ t.memSize = s.memSize

/-- The eleven instructions that write the accumulator (R22). -/
def accumulatorInstrs (n : Nat) : List Instr :=
  [.ldn n, .sub n, .sub2 n, .add n, .mul n, .div n, .and n, .or n, .xor n, .shl n, .shr n]

/-- The thirteen memory-operand instructions (R104). -/
def memoryInstrs : List (Nat → Instr) :=
  [.ldn, .sto, .sub, .sub2, .cmp, .add, .mul, .div, .and, .or, .xor, .shl, .shr]

/-- The exact integer an arithmetic instruction computes from A = s32(acc) and M; DIV's for M ≠ 0 (R146). -/
def ExactResult (i : Instr) (a m x : Int) : Prop :=
  (∃ n, i = .ldn n ∧ x = -m) ∨ (∃ n, (i = .sub n ∨ i = .sub2 n) ∧ x = a - m) ∨
    (∃ n, i = .add n ∧ x = a + m) ∨ (∃ n, i = .mul n ∧ x = a * m) ∨
    (∃ n, i = .div n ∧ m ≠ 0 ∧ x = a.tdiv m)

/-- DIV of accumulator `a` by operand word `m` leaves `q`, whatever the operand field and the rest of the state. -/
def DivGives (a m q : Int) : Prop :=
  ∀ n s, s.acc = BitVec.ofInt 32 a → operandWord s n = BitVec.ofInt 32 m →
    ∃ t, exec (.div n) s = .next t ∧ t.acc = BitVec.ofInt 32 q

/-- The instruction a RUNNING core executes at its next step: there is one if `pc` is neither 0 nor outside memory. -/
def Executes (s : State) (i : Instr) : Prop :=
  s.ctrl = .running ∧ s.pc ≠ 0 ∧ s.pc.toNat < s.memSize.words ∧ decode (Memory.read s.mem s.pc.toNat) = i

/-- The state after `k` steps. -/
def afterSteps : Nat → State → Result
  | 0, s => .next s
  | k + 1, s =>
    match step s with
    | .next t => afterSteps k t
    | r => r

/-- The text of a file whose lines are `ls`, each ended by a newline (R234). -/
def joinLines : List (List Char) → List Char
  | [] => []
  | l :: ls => l ++ '\n' :: joinLines ls

/-- A line the loader accepts: exactly 32 characters from `0` and `1` (R234). -/
def ValidLine (l : List Char) : Prop := l.length = 32 ∧ ∀ c ∈ l, c = '0' ∨ c = '1'

end Sys2Proof.Claims

open Sys2Proof Sys2Proof.Machine Sys2Proof.Claims

/-! ## Encoding -/

/-- R73 with R71's code and R72's operand: the decoder is total and gives the pair (code, operand) of every word. -/
def Obligations.DecoderReadsCodeAndOperand : Prop :=
  ∀ w : Word,
    decodeFields w =
      (8 * (w.getLsbD 13).toNat + 4 * (w.getLsbD 14).toNat + 2 * (w.getLsbD 15).toNat + (w.getLsbD 16).toNat,
        w.toNat % 2 ^ 13) ∧
    (decode w).code = (decodeFields w).1 ∧ (decode w).operand = (decodeFields w).2 ∧
    (decodeFields w).1 ≤ 15 ∧ (decodeFields w).2 ≤ 8191

/-- The round-trip contract (R80, which the spec derives): decoding an encoded well-formed instruction gives it back. -/
def Obligations.DecodeOfEncodeIsIdentity : Prop :=
  ∀ i : Instr, i.wf = true → decode (encode i) = i

/-- R74 (which the spec derives): bits 17 to 31 are not read, and encoding what a word decodes to gives that word with
them cleared; so no other bit is lost. -/
def Obligations.EncodeOfDecodeClearsIgnoredBits : Prop :=
  ∀ w : Word, decode w = decode (w &&& 0x1FFFF#32) ∧ encode (decode w) = w &&& 0x1FFFF#32 ∧ (decode w).wf = true

/-- R76 (decision D1, log entry 6): the code of each operation, and "The word of an instruction with operand n is
match + n". -/
def Obligations.OpcodeMapIsTheTable : Prop :=
  ∀ p ∈ ([(.jmp, 0, 0x00000), (.jrp, 1, 0x10000), (.ldn, 2, 0x08000), (.sto, 3, 0x18000), (.sub, 4, 0x04000),
      (.sub2, 5, 0x14000), (.cmp, 6, 0x0C000), (.stp, 7, 0x1C000), (.add, 8, 0x02000), (.mul, 9, 0x12000),
      (.div, 10, 0x0A000), (.and, 11, 0x1A000), (.or, 12, 0x06000), (.xor, 13, 0x16000), (.shl, 14, 0x0E000),
      (.shr, 15, 0x1E000)] : List ((Nat → Instr) × Nat × Nat)),
    ∀ n, n ≤ 8191 → (p.1 n).code = p.2.1 ∧ encode (p.1 n) = BitVec.ofNat 32 (p.2.2 + n)

/-- Words the spec writes out (R84, R239, both derived there) decode to the instructions they stand for. -/
def Obligations.WorkedWordsDecode : Prop :=
  decode 32770#32 = .ldn 2 ∧ decode 8195#32 = .add 3 ∧ decode 114688#32 = .stp 0 ∧ decode 4#32 = .jmp 4 ∧
    decode 65538#32 = .jrp 2 ∧ decode 98339#32 = .sto 35 ∧ decode 122893#32 = .shr 13 ∧
    decode (varWord (-5)) = .shr 8187 ∧ decode (varWord 5) = .jmp 5 ∧ decode (varWord (-114688)) = .sub 0

/-! ## The sixteen instructions. Each statement is also the instruction's completion statement: its meaning answers the
next state written out, for every operand and every state, and everything not named is unchanged. `pc + 1` is the 32-bit
register's; a run never reaches the one state where it would wrap (R25; DEDUCED, log entry 14). -/

/-- R120. -/
def Obligations.JmpSetsPcToOperand : Prop :=
  HasEncoding .jmp 0 0x00000#32 ∧
    ∀ n s, n ≤ 8191 →
      exec (.jmp n) s = .next { s with pc := BitVec.ofNat 32 n, ret := returned s.ctrl .none } ∧
      (BitVec.ofNat 32 n).toNat = n ∧
      (s.ctrl = .running → s.memSize.words ≤ n → ∃ t u, exec (.jmp n) s = .next t ∧ step t = .next u ∧
        u.ctrl = .faulted)

/-- R121. The sum is not wrapped: the statement is about every state where it fits the 32-bit register, and where a JRP
executes it is at most 8254, so the register never overflows in a run (R25). -/
def Obligations.JrpAddsOperandToPc : Prop :=
  HasEncoding .jrp 1 0x10000#32 ∧
    ∀ n s, n ≤ 8191 → s.pc.toNat + n < 2 ^ 32 →
      exec (.jrp n) s = .next { s with pc := BitVec.ofNat 32 (s.pc.toNat + n), ret := returned s.ctrl .none } ∧
      (BitVec.ofNat 32 (s.pc.toNat + n)).toNat = s.pc.toNat + n ∧
      (s.pc.toNat < s.memSize.words → s.pc.toNat + n ≤ 8254) ∧
      (s.ctrl = .running → s.memSize.words ≤ s.pc.toNat + n → ∃ t u, exec (.jrp n) s = .next t ∧
        step t = .next u ∧ u.ctrl = .faulted)

/-- R130 (decision D3, log entry 7). -/
def Obligations.LdnLoadsTheNegation : Prop :=
  HasEncoding .ldn 2 0x08000#32 ∧
    ∀ n s, exec (.ldn n) s = .next { s with
      acc := BitVec.ofInt 32 (-(operandWord s n).toInt), pc := s.pc + 1, ret := returned s.ctrl .none }

/-- R131. The memory is in its canonical form, which every step keeps (`StepKeepsTheInvariant`). -/
def Obligations.StoWritesTheAccumulator : Prop :=
  HasEncoding .sto 3 0x18000#32 ∧
    ∀ n s, Memory.wf s.memSize.words s.mem = true →
      ∃ t, exec (.sto n) s = .next t ∧
        t = { s with mem := t.mem, pc := s.pc + 1, ret := returned s.ctrl .none } ∧
        ∀ a, Memory.read t.mem a = if a = n % s.memSize.words then s.acc else Memory.read s.mem a

/-- R140 (decision D3, log entry 7). -/
def Obligations.SubSubtractsTheOperand : Prop :=
  HasEncoding .sub 4 0x04000#32 ∧
    ∀ n s, exec (.sub n) s = .next { s with
      acc := BitVec.ofInt 32 (s.acc.toInt - (operandWord s n).toInt), pc := s.pc + 1,
      ret := returned s.ctrl .none }

/-- R141: everything but the code is SUB's. -/
def Obligations.Sub2IsSubExactly : Prop :=
  HasEncoding .sub2 5 0x14000#32 ∧
    ∀ n s, exec (.sub2 n) s = exec (.sub n) s ∧ exec (.sub2 n) s = .next { s with
      acc := BitVec.ofInt 32 (s.acc.toInt - (operandWord s n).toInt), pc := s.pc + 1,
      ret := returned s.ctrl .none }

/-- R142 (decision D18, log entry 16): nothing but the event; no skip whatever the sign. -/
def Obligations.CmpOnlyReports : Prop :=
  HasEncoding .cmp 6 0x0C000#32 ∧
    ∀ n s, exec (.cmp n) s = .next { s with
      pc := s.pc + 1, ret := returned s.ctrl (.cmp s.pc s.acc.toInt (operandWord s n).toInt) }

/-- R160 (decision D9, log entry 12, for the value of `pc` after the halt): after it, any number of steps changes nothing
but the latched return (log entry 4). -/
def Obligations.StpHalts : Prop :=
  HasEncoding .stp 7 0x1C000#32 ∧
    ∀ n s, exec (.stp n) s = .next { s with
        ctrl := .halted, pc := s.pc + 1, ret := returned .halted (.halt s.pc) } ∧
      ∀ t, exec (.stp n) s = .next t → ∀ k,
        afterSteps (k + 1) t = .next { t with ret := some { ran := false, stillRunning := false, event := .none } }

/-- R143 (decision D3, log entry 7). -/
def Obligations.AddAddsTheOperand : Prop :=
  HasEncoding .add 8 0x02000#32 ∧
    ∀ n s, exec (.add n) s = .next { s with
      acc := BitVec.ofInt 32 (s.acc.toInt + (operandWord s n).toInt), pc := s.pc + 1,
      ret := returned s.ctrl .none }

/-- R144 (decision D3, log entry 7). -/
def Obligations.MulKeepsTheLowProduct : Prop :=
  HasEncoding .mul 9 0x12000#32 ∧
    ∀ n s, exec (.mul n) s = .next { s with
      acc := BitVec.ofInt 32 (s.acc.toInt * (operandWord s n).toInt), pc := s.pc + 1,
      ret := returned s.ctrl .none }

/-- R145 and R200 (decision D4, log entry 8): a zero divisor is reported and skipped, any other divides. -/
def Obligations.DivDividesOrReportsZero : Prop :=
  HasEncoding .div 10 0x0A000#32 ∧
    (∀ n s, (operandWord s n).toInt = 0 →
      exec (.div n) s = .next { s with pc := s.pc + 1, ret := returned s.ctrl (.divZero s.pc) }) ∧
    ∀ n s, (operandWord s n).toInt ≠ 0 → exec (.div n) s = .next { s with
      acc := BitVec.ofInt 32 (s.acc.toInt.tdiv (operandWord s n).toInt), pc := s.pc + 1,
      ret := returned s.ctrl .none }

/-- R170, bit by bit. -/
def Obligations.AndCombinesEachBit : Prop :=
  HasEncoding .and 11 0x1A000#32 ∧
    ∀ n s, ∃ t, exec (.and n) s = .next t ∧
      t = { s with acc := t.acc, pc := s.pc + 1, ret := returned s.ctrl .none } ∧
      ∀ i < 32, t.acc.getLsbD i = (s.acc.getLsbD i && (operandWord s n).getLsbD i)

/-- R171, bit by bit. -/
def Obligations.OrCombinesEachBit : Prop :=
  HasEncoding .or 12 0x06000#32 ∧
    ∀ n s, ∃ t, exec (.or n) s = .next t ∧
      t = { s with acc := t.acc, pc := s.pc + 1, ret := returned s.ctrl .none } ∧
      ∀ i < 32, t.acc.getLsbD i = (s.acc.getLsbD i || (operandWord s n).getLsbD i)

/-- R172, bit by bit. -/
def Obligations.XorCombinesEachBit : Prop :=
  HasEncoding .xor 13 0x16000#32 ∧
    ∀ n s, ∃ t, exec (.xor n) s = .next t ∧
      t = { s with acc := t.acc, pc := s.pc + 1, ret := returned s.ctrl .none } ∧
      ∀ i < 32, t.acc.getLsbD i = ((s.acc.getLsbD i).xor ((operandWord s n).getLsbD i))

/-- R173 (decision D5, log entry 9): the count is the operand word's low five bits; with it the bit-level reading, zeros
entering at bit 0 and bits past 31 lost. -/
def Obligations.ShlShiftsLeft : Prop :=
  HasEncoding .shl 14 0x0E000#32 ∧
    ∀ n s, ∃ t, exec (.shl n) s = .next t ∧
      t = { s with
        acc := BitVec.ofInt 32 ((s.acc.toNat : Int) * 2 ^ ((operandWord s n).toNat % 32)), pc := s.pc + 1,
        ret := returned s.ctrl .none } ∧
      ∀ i < 32, t.acc.getLsbD i =
        (decide ((operandWord s n).toNat % 32 ≤ i) && s.acc.getLsbD (i - (operandWord s n).toNat % 32))

/-- R174 (decision D5, log entry 9): the floor of A / 2^k; with it the bit-level reading, copies of bit 31 entering from
the top. -/
def Obligations.ShrShiftsRightArithmetically : Prop :=
  HasEncoding .shr 15 0x1E000#32 ∧
    ∀ n s, ∃ t, exec (.shr n) s = .next t ∧
      t = { s with
        acc := BitVec.ofInt 32 ⌊(s.acc.toInt : ℚ) / 2 ^ ((operandWord s n).toNat % 32)⌋, pc := s.pc + 1,
        ret := returned s.ctrl .none } ∧
      ∀ i < 32, t.acc.getLsbD i =
        if i + (operandWord s n).toNat % 32 < 32 then s.acc.getLsbD (i + (operandWord s n).toNat % 32)
        else s.acc.getLsbD 31

/-! ## Arithmetic as a whole -/

/-- R146 (decision D3, log entry 7): every arithmetic result differs from the exact one by a multiple of 2^32, and equals
it whenever the exact one fits in 32 bits; nothing saturates or traps. -/
def Obligations.ArithmeticWrapsModuloWord : Prop :=
  ∀ i s x, ExactResult i s.acc.toInt (operandWord s i.operand).toInt x →
    ∃ t, exec i s = .next t ∧ (∃ k : Int, t.acc.toInt = x + k * 2 ^ 32) ∧
      -(2 ^ 31) ≤ t.acc.toInt ∧ t.acc.toInt < 2 ^ 31 ∧
      (-(2 ^ 31) ≤ x → x < 2 ^ 31 → t.acc.toInt = x)

/-- R147 (decision D4, log entry 8): the quotient is rounded toward zero, its sign is the product of the operands' signs,
and the table's rows. -/
def Obligations.DivRoundsTowardZero : Prop :=
  (∀ n s, (operandWord s n).toInt ≠ 0 → ∃ t q, exec (.div n) s = .next t ∧ t.acc = BitVec.ofInt 32 q ∧
    |q| * |(operandWord s n).toInt| ≤ |s.acc.toInt| ∧
    |s.acc.toInt| < (|q| + 1) * |(operandWord s n).toInt| ∧
    (q ≠ 0 → q.sign = s.acc.toInt.sign * (operandWord s n).toInt.sign)) ∧
  DivGives 7 2 3 ∧ DivGives (-7) 2 (-3) ∧ DivGives 7 (-2) (-3) ∧ DivGives (-7) (-2) 3 ∧ DivGives 1 2 0 ∧
  DivGives (-1) 2 0 ∧ DivGives 0 5 0 ∧ DivGives (-(2 ^ 31)) (-1) (-(2 ^ 31)) ∧ ∀ a, DivGives a 0 a

/-! ## Frames -/

/-- The eleven accumulator instructions complete and change the accumulator, `pc` and the step's return only; memory is
the same at every address. -/
def Obligations.AccumulatorInstructionsFrame : Prop :=
  ∀ n s, ∀ i ∈ accumulatorInstrs n, ∃ t, exec i s = .next t ∧ t.pc = s.pc + 1 ∧ OnlyAccChanges s t

/-- STO completes and changes the one word at the effective address, `pc` and the step's return only. The address is the
meaning's own `effectiveAddress`. -/
def Obligations.StoreFrame : Prop :=
  ∀ n s, Memory.wf s.memSize.words s.mem = true → ∃ t, exec (.sto n) s = .next t ∧
    (∀ a, a ≠ effectiveAddress s n → Memory.read t.mem a = Memory.read s.mem a) ∧
    effectiveAddress s n < s.memSize.words ∧ Memory.read t.mem (effectiveAddress s n) = s.acc ∧
    t.acc = s.acc ∧ t.pc = s.pc + 1 ∧ t.ir = s.ir ∧ t.ctrl = s.ctrl ∧ t.amode = s.amode ∧ t.xb = s.xb ∧
    t.memSize = s.memSize

/-- JMP, JRP, CMP and STP complete, keep the accumulator and every word of memory; only STP changes the controller. -/
def Obligations.TransferCompareStopFrame : Prop :=
  ∀ n s, ∀ i ∈ ([.jmp n, .jrp n, .cmp n, .stp n] : List Instr), ∃ t, exec i s = .next t ∧
    (∀ a, Memory.read t.mem a = Memory.read s.mem a) ∧ t.acc = s.acc ∧ t.ir = s.ir ∧ t.amode = s.amode ∧
    t.xb = s.xb ∧ t.memSize = s.memSize ∧ (i ≠ .stp n → t.ctrl = s.ctrl)

/-! ## The controller -/

/-- A step runs the decoded instruction (R100, R103, R106): on a RUNNING core with `pc` neither 0 nor outside memory, the
step is `exec` of what the word at `pc` decodes to, on the state whose `ir` holds that word. -/
def Obligations.StepRunsTheDecodedInstruction : Prop :=
  ∀ s i, s.ctrl = .running → s.pc ≠ 0 → s.pc.toNat < s.memSize.words →
    decode (Memory.read s.mem s.pc.toNat) = i →
    step s = exec i { s with ir := Memory.read s.mem s.pc.toNat }

/-- R101 and R203 (decision D6, log entry 10): a fetch outside memory; after it, any number of steps changes nothing but
the latched return (log entry 4). -/
def Obligations.FetchOutsideMemoryFaults : Prop :=
  ∀ s, s.ctrl = .running → s.memSize.words ≤ s.pc.toNat →
    step s = .next { s with
      ctrl := .faulted, ret := some { ran := false, stillRunning := false, event := .fetchFault s.pc } } ∧
    ∀ t, step s = .next t → ∀ k,
      afterSteps (k + 1) t = .next { t with ret := some { ran := false, stillRunning := false, event := .none } }

/-- R102 (decisions D7 and D8, log entry 11): every fetch at address 0 is a skip, also the one a running `JMP 0` leads
to: that JMP leaves `pc` at 0, and the step after it is the skip to address 1. -/
def Obligations.AddressZeroIsSkipped : Prop :=
  (∀ s, s.ctrl = .running → s.pc = 0 → step s = .next { s with
    ir := Memory.read s.mem 0, pc := 1, ret := some { ran := true, stillRunning := true, event := .skip } }) ∧
  ∀ s, Executes s (.jmp 0) → ∃ t, step s = .next t ∧
    t = { s with ir := Memory.read s.mem s.pc.toNat, pc := 0, ret := returned .running .none } ∧
    step t = .next { t with
      ir := Memory.read s.mem 0, pc := 1, ret := some { ran := true, stillRunning := true, event := .skip } }

/-- R29 (decision D6, log entry 10): the running flag; what enters HALTED and FAULTED; nothing leaves them, no step (which
changes nothing there but the latched return, log entry 4) and no load (which writes no register, in any state). -/
def Obligations.ControllerStateTransitions : Prop :=
  ∀ s, (s.running = true ↔ s.ctrl = .running) ∧
    (s.ctrl = .running → ∀ t, step s = .next t →
      (t.ctrl = .halted ↔ ∃ n, Executes s (.stp n)) ∧ (t.ctrl = .faulted ↔ s.memSize.words ≤ s.pc.toNat)) ∧
    (s.ctrl ≠ .running →
      step s = .next { s with ret := some { ran := false, stillRunning := false, event := .none } }) ∧
    ∀ file t, load file s = .success t → t.ctrl = s.ctrl

/-- R108 (decision D9, log entry 12, for STP): `pc` is incremented unless the rule wrote it, and only JMP and JRP do; what
they write is theirs alone (R120, R121), with no increment. Each sum is stated where it fits the 32-bit register, as it does
wherever an instruction executes (R25). -/
def Obligations.PcAdvancesUnlessWritten : Prop :=
  ∀ i s t, exec i s = .next t →
    ((∀ n, i ≠ .jmp n) → (∀ n, i ≠ .jrp n) → s.pc.toNat + 1 < 2 ^ 32 → t.pc.toNat = s.pc.toNat + 1) ∧
    (∀ n, i = .jmp n → n ≤ 8191 → t.pc.toNat = n) ∧
    (∀ n, i = .jrp n → s.pc.toNat + n < 2 ^ 32 → t.pc.toNat = s.pc.toNat + n)

/-- "Within a run, only STO writes it" (R34): a step that changes a word of memory executes an STO, and the word is the
one at its effective address. -/
def Obligations.OnlyStoWritesMemory : Prop :=
  ∀ s t a, Memory.wf s.memSize.words s.mem = true → step s = .next t →
    Memory.read t.mem a ≠ Memory.read s.mem a →
    ∃ n, Executes s (.sto n) ∧ a = n % s.memSize.words ∧ Memory.read t.mem a = s.acc

/-- R27: only the fetch writes `ir`, with the whole word at `pc` as it was before the instruction; no instruction reads or
writes it. -/
def Obligations.OnlyFetchWritesInstructionRegister : Prop :=
  (∀ s t, step s = .next t →
    t.ir = if s.ctrl = .running ∧ s.pc.toNat < s.memSize.words then Memory.read s.mem s.pc.toNat else s.ir) ∧
  ∀ i s t w, exec i s = .next t → t.ir = s.ir ∧ exec i { s with ir := w } = .next { t with ir := w }

/-- R206 (derived there from R109): the checks in their order, and the one event each gives, with the values R109
returns. -/
def Obligations.StepReportsTheFirstCheckThatApplies : Prop :=
  ∀ s, ∃ t r, step s = .next t ∧ t.ret = some r ∧ r.stillRunning = (t.ctrl == .running) ∧
    if s.ctrl ≠ .running then r.ran = false ∧ r.event = .none
    else if s.memSize.words ≤ s.pc.toNat then r.ran = false ∧ r.event = .fetchFault s.pc
    else if s.pc = 0 then r.ran = true ∧ r.event = .skip
    else r.ran = true ∧
      match decode (Memory.read s.mem s.pc.toNat) with
      | .cmp n => r.event = .cmp s.pc s.acc.toInt (operandWord s n).toInt
      | .stp _ => r.event = .halt s.pc
      | .div n => r.event = if operandWord s n = 0 then .divZero s.pc else .none
      | _ => r.event = .none

/-- R204: no step stops without a next state, and the two errors a run can meet occur exactly where their rules say. -/
def Obligations.NoOtherErrorExists : Prop :=
  ∀ s, ∃ t r, step s = .next t ∧ t.ret = some r ∧
    (errorOfEvent r.event = some .fetchRange ↔ s.ctrl = .running ∧ s.memSize.words ≤ s.pc.toNat) ∧
    (errorOfEvent r.event = some .divZero ↔ ∃ n, Executes s (.div n) ∧ operandWord s n = 0) ∧
    errorOfEvent r.event ≠ some .formatError

/-- R33 (decision D12, log entry 3): no instruction and no interface operation reads or writes the index/base registers,
and they are 0 in a fresh state: with any other values in them, an instruction, a step and a load give the same answer,
but for them. -/
def Obligations.IndexRegistersAreInert : Prop :=
  (∀ i s t xb, exec i s = .next t → t.xb = s.xb ∧ exec i { s with xb := xb } = .next { t with xb := xb }) ∧
  (∀ s t xb, step s = .next t → t.xb = s.xb ∧ step { s with xb := xb } = .next { t with xb := xb }) ∧
  (∀ file s xb,
    (∀ t, load file s = .success t → t.xb = s.xb ∧ load file { s with xb := xb } = .success { t with xb := xb }) ∧
    (load file s = .formatError → load file { s with xb := xb } = .formatError) ∧
    (load file s = .notFresh → load file { s with xb := xb } = .notFresh)) ∧
  ∀ m k, (State.create m k).xb = List.replicate k 0

/-- MEM_SIZE "does not change during a run" (R6), and the selector stays DIRECT (R32, decision D11, log entry 13). -/
def Obligations.ParametersNeverChange : Prop :=
  (∀ s t, step s = .next t → t.memSize = s.memSize ∧ t.amode = .direct) ∧
  ∀ file s t, load file s = .success t → t.memSize = s.memSize ∧ t.amode = .direct

/-- R104: the effective address is `n mod MEM_SIZE`, below MEM_SIZE, for every memory-operand instruction; so address
`MEM_SIZE + k` reaches word k. -/
def Obligations.OperandAddressesWrap : Prop :=
  (∀ s n, effectiveAddress s n = n % s.memSize.words ∧ effectiveAddress s n < s.memSize.words) ∧
  ∀ op ∈ memoryInstrs, ∀ n k s, exec (op (n + k * s.memSize.words)) s = exec (op n) s

/-- R63 (derived there): the word an STO wrote is the word fetched by a later step at that address, and the STO's own
step runs on with the `ir` it had. -/
def Obligations.StoredWordIsFetched : Prop :=
  ∀ n s t u, Memory.wf s.memSize.words s.mem = true → exec (.sto n) s = .next t → t.ir = s.ir ∧
    (u.mem = t.mem → u.memSize = t.memSize → u.ctrl = .running → u.pc ≠ 0 →
      u.pc.toNat = effectiveAddress s n → step u = exec (decode s.acc) { u with ir := s.acc })

/-- R60's memory model over any sequence of writes after a load: the last write to the address, else the loaded word,
else 0; and the canonical form is kept. -/
def Obligations.ReadReturnsTheLastWrite : Prop :=
  ∀ (size : Nat) (loaded : List Word) (writes : List (Nat × Word)), loaded.length ≤ size →
    (∀ p ∈ writes, p.1 < size) →
    let m := writes.foldl (fun m p => Memory.write m p.1 p.2) (Memory.place [] 0 loaded)
    Memory.wf size m = true ∧
      ∀ a, Memory.read m a = ((writes.reverse.find? (fun p => p.1 = a)).map Prod.snd).getD (loaded.getD a 0)

/-- The canonical form is canonical: two memories in it that read the same are the same data (the model's own choice of
representation, log entry 1). -/
def Obligations.CanonicalMemoriesWithEqualReadsAreEqual : Prop :=
  ∀ (size : Nat) (m m' : Memory), Memory.wf size m = true → Memory.wf size m' = true →
    (∀ a < size, Memory.read m a = Memory.read m' a) → m = m'

/-! ## Invariants, what cannot be observed, and the refinement -/

/-- A fresh state, of either size and with any count of index/base registers, meets the invariant. -/
def Obligations.FreshStateMeetsTheInvariant : Prop :=
  (∀ m k, (State.create m k).Inv) ∧ State.reset.Inv

/-- Every step keeps the invariant: canonical memory below MEM_SIZE, `pc` at most 8254 (R25), DIRECT, and the returned
`still_running` equal to the running flag. -/
def Obligations.StepKeepsTheInvariant : Prop :=
  ∀ s t, s.Inv → step s = .next t → t.Inv

/-- Every state the host can bring about, by creating, loading and stepping, meets the invariant, and its index/base
registers are all 0. -/
def Obligations.ReachableStatesMeetTheInvariant : Prop :=
  ∀ s, Reachable s → s.Inv ∧ ∀ w ∈ s.xb, w = 0

/-- R28, R33 and R38 together: two states that differ only in `ir`, the index/base registers and the last return step to
states that do so too, and the steps return the same to the host. -/
def Obligations.UnreadStateIsUnobservable : Prop :=
  ∀ s s' t, s.AgreesWith s' → step s = .next t →
    ∃ t', step s' = .next t' ∧ t.AgreesWith t' ∧ t.ret = t'.ret

/-- The step is R109's function, read a second time over a flat machine (`Reference`): memory as a function, `pc` a
number, dispatch by code number, vector arithmetic. -/
def Obligations.StepRefinesTheFlatMachine : Prop :=
  ∀ s, s.Inv → ∃ t, step s = .next t ∧ Reference.flat t = (Reference.step (Reference.flat s)).1 ∧
    t.ret = some (Reference.step (Reference.flat s)).2

/-! ## Reset, the loader and the host's run -/

/-- R230 (decision D10, log entry 5): the reset value its table gives each field of a fresh state, and MEM_SIZE as chosen
at creation. The model's own `ret` (log entry 4) is no field of that table. -/
def Obligations.FreshStateValues : Prop :=
  ∀ m k, let s := State.create m k
    (∀ a, Memory.read s.mem a = 0) ∧ s.acc = 0 ∧ s.pc = 0 ∧ s.ir = 0 ∧ s.ctrl = .running ∧ s.running = true ∧
      s.amode = .direct ∧ s.xb.length = k ∧ (∀ w ∈ s.xb, w = 0) ∧ s.memSize = m

/-- R231 (derived there): whatever file was loaded, the first step is the skip and the second runs the word at
address 1. -/
def Obligations.FirstInstructionIsAtAddressOne : Prop :=
  ∀ m k file s, load file (State.create m k) = .success s →
    ∃ t, step s = .next t ∧ t.pc = 1 ∧ t.acc = 0 ∧ t.mem = s.mem ∧
      step t = exec (decode (Memory.read s.mem 1)) { t with ir := Memory.read s.mem 1 }

/-- R235 (decision D14, log entry 17): after all checks pass, line k is in `mem[k]`, bit j from character j; words after
the last line are 0; the last newline may be missing; an empty file is accepted; no register is written. -/
def Obligations.LoadWritesEveryLine : Prop :=
  ∀ m k ls file, (∀ l ∈ ls, ValidLine l) → ls.length ≤ m.words →
    file = joinLines ls ∨ file = (joinLines ls).dropLast →
    ∃ t, load file (State.create m k) = .success t ∧ t = { State.create m k with mem := t.mem } ∧
      ∀ a j, (Memory.read t.mem a).getLsbD j = decide (((ls.getD a [])[j]?) = some '1')

/-- R234 (decision D14, log entry 17): FormatError exactly when a line has a length other than 32 or a character other
than 0 and 1 (a carriage return is one), or there are more than MEM_SIZE lines. A failure carries no state. The last line
may lack its newline (R235) if it has a character; an empty one without a newline is no line at all. -/
def Obligations.LoadChecksEveryLine : Prop :=
  ∀ m k ls file, (∀ l ∈ ls, '\n' ∉ l) →
    file = joinLines ls ∨ ls.getLast? ≠ some [] ∧ file = (joinLines ls).dropLast →
    (load file (State.create m k) = .formatError ↔ (∃ l ∈ ls, ¬ ValidLine l) ∨ m.words < ls.length)

/-- The host applies `load` only to a state that has not stepped (R36; decision D15): after any step, and on any state
that is not RUNNING, the model declines it, by an answer of its own (DESIGN CHOICE, log entry 17). -/
def Obligations.LoadIsDeclinedAfterAStep : Prop :=
  (∀ s t file, step s = .next t → load file t = .notFresh) ∧
  ∀ s file, s.ctrl ≠ .running → load file s = .notFresh

/-- R110 (decision D19, log entry 19): the host's run, for any limit, ends at the first step that returns `still_running`
false, with `ctrl` HALTED or FAULTED; only the limit leaves the core RUNNING, and then every step was taken. -/
def Obligations.HostRunEndsWhenNotRunning : Prop :=
  ∀ k s, ∃ t, hostRun k s = .next t ∧ (hostTrace k s).length ≤ k ∧
    ((hostTrace k s).length < k → t.ctrl = .halted ∨ t.ctrl = .faulted) ∧
    (∀ r, (hostTrace k s).getLast? = some r → r.stillRunning = (t.ctrl == .running)) ∧
    ∀ r ∈ (hostTrace k s).dropLast, r.stillRunning = true

/-- R111 (derived there): ran steps less Skip events is the number of steps that executed an instruction. -/
def Obligations.InstructionCountIsRanLessSkips : Prop :=
  ∀ k s, instructionsExecuted (hostTrace k s) = executingStates k s

/-- The model's own means of placing a word (log entry 18): after `withFetchWord` the very next step runs it, from any
state whose memory is in rising order. -/
def Obligations.PlacedWordRunsNext : Prop :=
  ∀ (s : State) (w : Nat), w < 2 ^ 32 → Memory.rising s.mem = true →
    step (s.withFetchWord 32 w) =
      exec (decode (BitVec.ofNat 32 w)) { s.withFetchWord 32 w with ir := BitVec.ofNat 32 w }

/-! ## The toolchain -/

/-- R83: a word is exactly 32 characters from `0` and `1`, character j is bit j, and the loader reads it back. -/
def Obligations.SerialisedWordIsBitZeroFirst : Prop :=
  ∀ w : Word, (wordText w).length = 32 ∧
    (∀ j < 32, (wordText w)[j]? = some (if w.getLsbD j then '1' else '0')) ∧ parseLine (wordText w) = some w

/-- R81 and R82 (decisions D21 and D22, log entries 20 and 22): STP's fixed pattern, which runs as any word of code 7 does,
and the words of `VAR v`. -/
def Obligations.ToolchainWords : Prop :=
  stpPattern = 0x0001C000#32 ∧ wordText stpPattern = "00000000000000111000000000000000".toList ∧
    (∀ n s, exec (.stp n) s = exec (decode stpPattern) s) ∧
    (∀ v : Int, -(2 ^ 31) ≤ v → v ≤ 2 ^ 31 - 1 → (varWord v).toInt = v) ∧
    wordText (varWord 5) = "10100000000000000000000000000000".toList ∧
    wordText (varWord (-5)) = "11011111111111111111111111111111".toList

/-- R87 with R86's binding: pass 1 succeeds exactly when the labels of the lines are distinct and at most 100; the table
then binds each label to the index of its line, in order; any failure is a SymbolError. -/
def Obligations.SymbolTableIsUniqueAndBounded : Prop :=
  ∀ lines : List (List Char),
    let labels := lines.zipIdx.filterMap fun p => ((splitLabel p.1).1).map fun name => (name, p.2)
    (passOne lines 0 [] = .ok labels ↔ (labels.map Prod.fst).Nodup ∧ labels.length ≤ 100) ∧
    (∀ table, passOne lines 0 [] = .ok table → table = labels) ∧
    ∀ e, passOne lines 0 [] = .error e → asmErrorKind e = .symbolError

/-- R90 with R234 (derived): the file of a source that assembles has one 32-character line for each line that takes an
address, and a memory large enough loads it, word for word. -/
def Obligations.AssembledFileLoads : Prop :=
  ∀ source out m k, assemble source = .ok out → (addressedLines source).length ≤ m.words →
    ∃ ws t, assembleWords source = .ok ws ∧ ws.length = (addressedLines source).length ∧
      load out (State.create m k) = .success t ∧ ∀ a, Memory.read t.mem a = ws.getD a 0
end

