-- ==== Sys2Proof/Laws/Alu.lean ====
section
/-! SUPPORT. The exact-integer arithmetic, reduced to 32 bits, as 32-bit vector operations; the shift count's range. -/

namespace Sys2Proof.Machine

theorem shiftCount_eq (w : Word) : shiftCount w = w.toNat % 32 := by
  simp [shiftCount, BitVec.extractLsb'_toNat]

theorem shiftCount_lt (w : Word) : shiftCount w < 32 := by
  rw [shiftCount_eq]; exact Nat.mod_lt _ (by decide)

theorem negWord_eq (m : Word) : negWord m = -m := by
  apply BitVec.eq_of_toInt_eq
  simp [negWord, u32, s32, BitVec.toInt_ofInt, BitVec.toInt_neg]

theorem addWord_eq (a m : Word) : addWord a m = a + m := by
  apply BitVec.eq_of_toInt_eq
  simp [addWord, u32, s32, BitVec.toInt_ofInt, BitVec.toInt_add]

theorem subWord_eq (a m : Word) : subWord a m = a - m := by
  apply BitVec.eq_of_toInt_eq
  simp [subWord, u32, s32, BitVec.toInt_ofInt, BitVec.toInt_sub]

theorem mulWord_eq (a m : Word) : mulWord a m = a * m := by
  apply BitVec.eq_of_toInt_eq
  simp [mulWord, u32, s32, BitVec.toInt_ofInt, BitVec.toInt_mul]

theorem divWord_eq (a m : Word) : divWord a m = a.sdiv m := by
  apply BitVec.eq_of_toInt_eq
  simp [divWord, u32, s32, BitVec.toInt_ofInt, BitVec.toInt_sdiv]

theorem s32_eq_zero (m : Word) : s32 m = 0 ↔ m = 0 := by
  constructor
  · intro h; apply BitVec.eq_of_toInt_eq; simpa [s32] using h
  · rintro rfl; rfl

theorem shlWord_eq (a w : Word) : shlWord a w = a <<< (w.toNat % 32) := by
  apply BitVec.eq_of_toNat_eq
  rw [shlWord, u32, shiftCount_eq, BitVec.toNat_shiftLeft, Nat.shiftLeft_eq, BitVec.toNat_ofInt]
  push_cast
  norm_cast

theorem shrWord_eq (a w : Word) : shrWord a w = a.sshiftRight (w.toNat % 32) := by
  apply BitVec.eq_of_toInt_eq
  rw [shrWord, u32, shiftCount_eq, BitVec.toInt_sshiftRight, Int.shiftRight_eq_div_pow, BitVec.toInt_ofInt, s32,
    Int.fdiv_eq_ediv_of_nonneg _ (by positivity)]
  have hlt : a.toInt < 2147483648 := by simpa using BitVec.toInt_lt (x := a)
  have hge : -2147483648 ≤ a.toInt := by simpa using BitVec.le_toInt a
  have hk : (1 : Int) ≤ 2 ^ (w.toNat % 32) := one_le_pow₀ (by decide)
  push_cast
  generalize (2 : Int) ^ (w.toNat % 32) = k at hk ⊢
  have hlow : -2147483648 ≤ a.toInt / k := by
    rw [Int.le_ediv_iff_mul_le (by omega)]; nlinarith
  have hhigh : a.toInt / k < 2147483648 := by
    rw [Int.ediv_lt_iff_lt_mul (by omega)]; nlinarith
  exact Int.bmod_eq_of_le (by omega) (by omega)

end Sys2Proof.Machine
end

