-- ==== Sys2Proof/Laws/Assembler.lean ====
section
/-! SUPPORT. What the assembler's two passes answer. -/

namespace Sys2Proof.Machine

theorem lookupSymbol_isSome (name : List Char) (table : SymbolTable) :
    (lookupSymbol name table).isSome = true ↔ name ∈ table.map Prod.fst := by
  induction table with
  | nil => simp [lookupSymbol]
  | cons p t ih =>
    by_cases h : p.1 = name
    · simp [lookupSymbol, h]
    · rw [lookupSymbol, if_neg h, ih, List.map_cons, List.mem_cons]
      exact ⟨.inr, fun hm => hm.resolve_left fun e => h e.symm⟩

/-- Pass 2 emits one word for each line. -/
theorem passTwo_length {table : SymbolTable} {lines : List (List Char)} {ws : List Word}
    (h : passTwo table lines = .ok ws) : ws.length = lines.length := by
  induction lines generalizing ws with
  | nil => cases h; rfl
  | cons l ls ih =>
    rw [passTwo] at h
    split at h
    · cases h
    · split at h
      · cases h
      · cases h; rename_i hrest; simp [ih hrest]

/-- The inversion of a successful assembly. -/
theorem assemble_ok {source out : List Char} (h : assemble source = .ok out) :
    ∃ ws, assembleWords source = .ok ws ∧ ws.length = (addressedLines source).length ∧ out = fileText ws := by
  unfold assemble at h
  split at h
  · rename_i ws hws
    cases h
    refine ⟨ws, hws, ?_, rfl⟩
    unfold assembleWords at hws
    split at hws
    · cases hws
    · exact passTwo_length hws
  · cases h

end Sys2Proof.Machine
end

