-- ==== Sys2Proof/Laws/Decode.lean ====
section
/-! SUPPORT. The decoder's fields, and that an instruction is its code and its operand. -/

namespace Sys2Proof

theorem operandField_eq (w : Word) : operandField w = w.toNat % 8192 := by
  simp [operandField, BitVec.extractLsb'_toNat]

theorem operandField_lt (w : Word) : operandField w < 8192 := by
  rw [operandField_eq]; exact Nat.mod_lt _ (by decide)

/-- The four opcode bits of a number: bit 13 + j is `v / 2^(13+j) % 2`. -/
theorem getLsbD_ofNat_eq (v i : Nat) (hi : i < 32) :
    (BitVec.ofNat 32 v).getLsbD i = decide (v / 2 ^ i % 2 = 1) := by
  rw [BitVec.getLsbD_ofNat, Nat.testBit_eq_decide_div_mod_eq]; simp [hi]

@[simp] theorem decode_operand (w : Word) : (decode w).operand = operandField w := by
  unfold decode; split <;> rfl

@[simp] theorem decode_code (w : Word) : (decode w).code = codeField w := by
  unfold decode codeField; split <;> simp_all [Instr.code]

/-- An instruction is its code and its operand. -/
theorem Instr.eq_of_code_operand {i j : Instr} (hc : i.code = j.code) (ho : i.operand = j.operand) : i = j := by
  cases i <;> cases j <;> simp_all [Instr.code, Instr.operand]

theorem Instr.wf_iff (i : Instr) : i.wf = true ↔ i.operand < 8192 := decide_eq_true_iff

/-- The fields of a number laid out as R80 lays them out. -/
theorem fields_ofNat (n k : Nat) (hn : n < 8192) (hk : k < 16) :
    operandField (BitVec.ofNat 32 (n + k * 2 ^ 13)) = n ∧
      codeField (BitVec.ofNat 32 (n + k * 2 ^ 13)) = rev4 k := by
  constructor
  · rw [operandField_eq, BitVec.toNat_ofNat]; omega
  · have bit (j : Nat) (hj : j < 4) : (n + k * 2 ^ 13) / 2 ^ (13 + j) % 2 = k / 2 ^ j % 2 := by
      rw [pow_add, ← Nat.div_div_eq_div_mul, show (n + k * 2 ^ 13) / 2 ^ 13 = k by omega]
    have h0 := bit 0 (by decide)
    have h1 := bit 1 (by decide)
    have h2 := bit 2 (by decide)
    have h3 := bit 3 (by decide)
    simp only [Nat.add_zero, Nat.reduceAdd] at h0 h1 h2 h3
    simp only [codeField, getLsbD_ofNat_eq _ _ (by decide : 13 < 32), getLsbD_ofNat_eq _ _ (by decide : 14 < 32),
      getLsbD_ofNat_eq _ _ (by decide : 15 < 32), getLsbD_ofNat_eq _ _ (by decide : 16 < 32), h0, h1, h2, h3, rev4]
    interval_cases k <;> rfl

theorem rev4_rev4 (c : Nat) (hc : c < 16) : rev4 (rev4 c) = c := by
  interval_cases c <;> rfl

/-- The opcode bits of a word as a number, bit 13 the least significant: the code reversed. -/
theorem rev4_codeField (w : Word) : rev4 (codeField w) = w.toNat / 2 ^ 13 % 16 := by
  have bit (i : Nat) : (w.getLsbD i).toNat = w.toNat / 2 ^ i % 2 := by
    rw [← BitVec.testBit_toNat, Nat.testBit_eq_decide_div_mod_eq]
    rcases Nat.mod_two_eq_zero_or_one (w.toNat / 2 ^ i) with h | h <;> simp [h]
  have sum : w.toNat / 2 ^ 13 % 16 =
      (w.getLsbD 13).toNat + 2 * (w.getLsbD 14).toNat + 4 * (w.getLsbD 15).toNat + 8 * (w.getLsbD 16).toNat := by
    simp only [bit]; omega
  rw [sum, codeField]
  cases w.getLsbD 13 <;> cases w.getLsbD 14 <;> cases w.getLsbD 15 <;> cases w.getLsbD 16 <;> rfl

theorem codeField_lt (w : Word) : codeField w < 16 := by
  unfold codeField
  cases w.getLsbD 13 <;> cases w.getLsbD 14 <;> cases w.getLsbD 15 <;> cases w.getLsbD 16 <;> decide

/-- Masking with the opcode table's mask keeps bits 13 to 16. -/
theorem toNat_and_opcodeMask (w : Word) : (w &&& 0x1E000#32).toNat = w.toNat / 2 ^ 13 % 16 * 2 ^ 13 := by
  have hshift : w &&& 0x1E000#32 = ((w >>> 13) &&& 0xF#32) <<< 13 := by
    ext i hi
    simp
    interval_cases i <;> simp
  have hlow : (w.toNat >>> 13) &&& 15 = w.toNat >>> 13 % 16 := Nat.and_two_pow_sub_one_eq_mod _ 4
  rw [hshift, BitVec.toNat_shiftLeft, BitVec.toNat_and, BitVec.toNat_ushiftRight, show (0xF#32).toNat = 15 from rfl, hlow,
    Nat.shiftRight_eq_div_pow, Nat.shiftLeft_eq]
  omega

theorem rev4_lt (c : Nat) : rev4 c < 16 := by unfold rev4; omega

theorem Instr.code_lt (i : Instr) : i.code < 16 := by cases i <;> simp [Instr.code]

end Sys2Proof
end

