-- ==== Sys2Proof/Laws/Memory.lean ====
section
/-! SUPPORT. What reading and writing one word do, and that every memory operation keeps the canonical form. -/

namespace Sys2Proof.Machine

/-- Every address of the list lies above `a`. -/
def Memory.above (a : Nat) (m : Memory) : Prop := ∀ c ∈ m, a < c.1

theorem Memory.rising_cons (c : Nat × Word) (m : Memory) :
    Memory.rising (c :: m) = true ↔ Memory.above c.1 m ∧ Memory.rising m = true := by
  simp [Memory.rising, Memory.above]

/-- An address below every listed one reads as the unlisted word. -/
theorem Memory.read_of_above {a : Nat} {m : Memory} (h : Memory.above a m) :
    Memory.read m a = Memory.unlisted := by
  cases m with
  | nil => rfl
  | cons c m => simp [Memory.read, h c (by simp)]

theorem Memory.above_mono {a b : Nat} {m : Memory} (hab : a ≤ b) (h : Memory.above b m) :
    Memory.above a m := fun c hc => Nat.lt_of_le_of_lt hab (h c hc)

/-- A written list holds the written address and old entries only. -/
theorem Memory.mem_write {m : Memory} {a : Nat} {w : Word} {c : Nat × Word}
    (h : c ∈ Memory.write m a w) : c = (a, w) ∧ w ≠ Memory.unlisted ∨ c ∈ m := by
  induction m with
  | nil =>
    simp only [Memory.write] at h
    split at h <;> simp_all
  | cons d m ih =>
    obtain ⟨b, v⟩ := d
    simp only [Memory.write] at h
    split_ifs at h <;> simp_all <;> tauto

theorem Memory.write_rising {m : Memory} (h : Memory.rising m = true) (a : Nat) (w : Word) :
    Memory.rising (Memory.write m a w) = true := by
  induction m with
  | nil => simp only [Memory.write]; split <;> rfl
  | cons d m ih =>
    obtain ⟨b, v⟩ := d
    obtain ⟨hb, hm⟩ := (Memory.rising_cons _ _).1 h
    simp only [Memory.write]
    split_ifs with h1 h2 h3 h4
    · exact h
    · refine (Memory.rising_cons _ _).2 ⟨?_, h⟩
      intro c hc
      rcases List.mem_cons.1 hc with rfl | hc
      · exact h1
      · exact lt_trans h1 (hb c hc)
    · exact hm
    · exact (Memory.rising_cons _ _).2 ⟨h3 ▸ hb, hm⟩
    · refine (Memory.rising_cons _ _).2 ⟨?_, ih hm⟩
      intro c hc
      rcases Memory.mem_write hc with ⟨rfl, -⟩ | hc
      · simp only; omega
      · exact hb c hc

theorem Memory.wf_iff (size : Nat) (m : Memory) :
    Memory.wf size m = true ↔
      Memory.rising m = true ∧ ∀ c ∈ m, c.1 < size ∧ c.2 ≠ Memory.unlisted := by
  simp [Memory.wf]

/-- A write inside the array keeps the canonical form. -/
theorem Memory.write_wf {size : Nat} {m : Memory} (h : Memory.wf size m = true) {a : Nat} (ha : a < size)
    (w : Word) : Memory.wf size (Memory.write m a w) = true := by
  rw [Memory.wf_iff] at h ⊢
  refine ⟨Memory.write_rising h.1 a w, fun c hc => ?_⟩
  rcases Memory.mem_write hc with ⟨rfl, hw⟩ | hc
  · exact ⟨ha, hw⟩
  · exact h.2 c hc

/-- Read after write, at any address: the written word at the written address, the old word elsewhere. -/
theorem Memory.read_write {m : Memory} (h : Memory.rising m = true) (a b : Nat) (w : Word) :
    Memory.read (Memory.write m a w) b = if b = a then w else Memory.read m b := by
  induction m with
  | nil =>
    simp only [Memory.write]
    split_ifs with h1 h2 h2 <;> simp_all [Memory.read]
  | cons d m ih =>
    obtain ⟨c, v⟩ := d
    obtain ⟨hc, hm⟩ := (Memory.rising_cons _ _).1 h
    have hread : Memory.above c m := hc
    simp only [Memory.write]
    rcases Nat.lt_trichotomy a c with hac | rfl | hac
    · rw [if_pos hac]
      by_cases hw : w = Memory.unlisted
      · rw [if_pos hw]
        split_ifs with hba
        · subst hba; simp [Memory.read, hac, hw]
        · rfl
      · rw [if_neg hw]
        simp only [Memory.read]
        rcases Nat.lt_trichotomy b a with h1 | rfl | h1
        · simp [h1, Nat.ne_of_lt h1, lt_trans h1 hac]
        · simp
        · simp [Nat.not_lt.2 (Nat.le_of_lt h1), Nat.ne_of_gt h1]
    · rw [if_neg (lt_irrefl a), if_pos rfl]
      rcases Nat.lt_trichotomy b a with h1 | rfl | h1
      · rw [if_neg (Nat.ne_of_lt h1)]
        split_ifs
        · rw [Memory.read_of_above (Memory.above_mono (Nat.le_of_lt h1) hread)]; simp [Memory.read, h1]
        · simp [Memory.read, h1]
      · rw [if_pos rfl]
        split_ifs with hw
        · rw [Memory.read_of_above hread, hw]
        · simp [Memory.read]
      · rw [if_neg (Nat.ne_of_gt h1)]
        split_ifs <;> simp [Memory.read, Nat.not_lt.2 (Nat.le_of_lt h1), Nat.ne_of_gt h1]
    · rw [if_neg (Nat.not_lt.2 (Nat.le_of_lt hac)), if_neg (Nat.ne_of_gt hac)]
      simp only [Memory.read, ih hm]
      rcases Nat.lt_trichotomy b c with h1 | rfl | h1
      · simp [h1]; omega
      · simp; omega
      · simp [Nat.not_lt.2 (Nat.le_of_lt h1), Nat.ne_of_gt h1]

@[simp] theorem Memory.wf_nil (size : Nat) : Memory.wf size [] = true := rfl

@[simp] theorem Memory.read_nil (a : Nat) : Memory.read [] a = 0 := rfl

theorem Memory.rising_of_wf {size : Nat} {m : Memory} (h : Memory.wf size m = true) :
    Memory.rising m = true := ((Memory.wf_iff _ _).1 h).1

theorem Memory.place_wf {size : Nat} {m : Memory} (h : Memory.wf size m = true) (a : Nat) (ws : List Word)
    (hlen : a + ws.length ≤ size) : Memory.wf size (Memory.place m a ws) = true := by
  induction ws generalizing m a with
  | nil => exact h
  | cons w ws ih =>
    simp only [List.length_cons] at hlen
    exact ih (Memory.write_wf h (by omega) w) (a + 1) (by omega)

/-- Placing words at `a` on: word k stands at `a + k`, every other address keeps its word. -/
theorem Memory.read_place {m : Memory} (h : Memory.rising m = true) (a : Nat) (ws : List Word) (b : Nat) :
    Memory.read (Memory.place m a ws) b =
      if a ≤ b then (ws[b - a]?).getD (Memory.read m b) else Memory.read m b := by
  induction ws generalizing m a with
  | nil => simp [Memory.place]
  | cons w ws ih =>
    rw [Memory.place, ih (Memory.write_rising h a w), Memory.read_write h]
    rcases Nat.lt_trichotomy b a with h1 | rfl | h1
    · simp [Nat.not_le.2 h1, show ¬ a + 1 ≤ b by omega, Nat.ne_of_lt h1]
    · simp
    · have : b - a = (b - (a + 1)) + 1 := by omega
      simp [Nat.le_of_lt h1, Nat.succ_le_of_lt h1, Nat.ne_of_gt h1, this]

end Sys2Proof.Machine
end

