-- ==== Sys2Proof/Laws/State.lean ====
section
/-! SUPPORT. One lemma per field per update of State, so that no later proof unfolds a record update. -/

namespace Sys2Proof.Machine

section fields
variable (s : State) (w : Word) (c : Ctrl) (m : Memory) (r : StepReturn) (ev : Event)

@[simp] theorem State.setAcc_memSize : (s.setAcc w).memSize = s.memSize := rfl
@[simp] theorem State.setAcc_mem : (s.setAcc w).mem = s.mem := rfl
@[simp] theorem State.setAcc_acc : (s.setAcc w).acc = w := rfl
@[simp] theorem State.setAcc_pc : (s.setAcc w).pc = s.pc := rfl
@[simp] theorem State.setAcc_ir : (s.setAcc w).ir = s.ir := rfl
@[simp] theorem State.setAcc_ctrl : (s.setAcc w).ctrl = s.ctrl := rfl
@[simp] theorem State.setAcc_amode : (s.setAcc w).amode = s.amode := rfl
@[simp] theorem State.setAcc_xb : (s.setAcc w).xb = s.xb := rfl
@[simp] theorem State.setAcc_ret : (s.setAcc w).ret = s.ret := rfl

@[simp] theorem State.setPc_memSize : (s.setPc w).memSize = s.memSize := rfl
@[simp] theorem State.setPc_mem : (s.setPc w).mem = s.mem := rfl
@[simp] theorem State.setPc_acc : (s.setPc w).acc = s.acc := rfl
@[simp] theorem State.setPc_pc : (s.setPc w).pc = w := rfl
@[simp] theorem State.setPc_ir : (s.setPc w).ir = s.ir := rfl
@[simp] theorem State.setPc_ctrl : (s.setPc w).ctrl = s.ctrl := rfl
@[simp] theorem State.setPc_amode : (s.setPc w).amode = s.amode := rfl
@[simp] theorem State.setPc_xb : (s.setPc w).xb = s.xb := rfl
@[simp] theorem State.setPc_ret : (s.setPc w).ret = s.ret := rfl

@[simp] theorem State.setIr_memSize : (s.setIr w).memSize = s.memSize := rfl
@[simp] theorem State.setIr_mem : (s.setIr w).mem = s.mem := rfl
@[simp] theorem State.setIr_acc : (s.setIr w).acc = s.acc := rfl
@[simp] theorem State.setIr_pc : (s.setIr w).pc = s.pc := rfl
@[simp] theorem State.setIr_ir : (s.setIr w).ir = w := rfl
@[simp] theorem State.setIr_ctrl : (s.setIr w).ctrl = s.ctrl := rfl
@[simp] theorem State.setIr_amode : (s.setIr w).amode = s.amode := rfl
@[simp] theorem State.setIr_xb : (s.setIr w).xb = s.xb := rfl
@[simp] theorem State.setIr_ret : (s.setIr w).ret = s.ret := rfl

@[simp] theorem State.setCtrl_memSize : (s.setCtrl c).memSize = s.memSize := rfl
@[simp] theorem State.setCtrl_mem : (s.setCtrl c).mem = s.mem := rfl
@[simp] theorem State.setCtrl_acc : (s.setCtrl c).acc = s.acc := rfl
@[simp] theorem State.setCtrl_pc : (s.setCtrl c).pc = s.pc := rfl
@[simp] theorem State.setCtrl_ir : (s.setCtrl c).ir = s.ir := rfl
@[simp] theorem State.setCtrl_ctrl : (s.setCtrl c).ctrl = c := rfl
@[simp] theorem State.setCtrl_amode : (s.setCtrl c).amode = s.amode := rfl
@[simp] theorem State.setCtrl_xb : (s.setCtrl c).xb = s.xb := rfl
@[simp] theorem State.setCtrl_ret : (s.setCtrl c).ret = s.ret := rfl

@[simp] theorem State.setMem_memSize : (s.setMem m).memSize = s.memSize := rfl
@[simp] theorem State.setMem_mem : (s.setMem m).mem = m := rfl
@[simp] theorem State.setMem_acc : (s.setMem m).acc = s.acc := rfl
@[simp] theorem State.setMem_pc : (s.setMem m).pc = s.pc := rfl
@[simp] theorem State.setMem_ir : (s.setMem m).ir = s.ir := rfl
@[simp] theorem State.setMem_ctrl : (s.setMem m).ctrl = s.ctrl := rfl
@[simp] theorem State.setMem_amode : (s.setMem m).amode = s.amode := rfl
@[simp] theorem State.setMem_xb : (s.setMem m).xb = s.xb := rfl
@[simp] theorem State.setMem_ret : (s.setMem m).ret = s.ret := rfl

@[simp] theorem State.setRet_memSize : (s.setRet r).memSize = s.memSize := rfl
@[simp] theorem State.setRet_mem : (s.setRet r).mem = s.mem := rfl
@[simp] theorem State.setRet_acc : (s.setRet r).acc = s.acc := rfl
@[simp] theorem State.setRet_pc : (s.setRet r).pc = s.pc := rfl
@[simp] theorem State.setRet_ir : (s.setRet r).ir = s.ir := rfl
@[simp] theorem State.setRet_ctrl : (s.setRet r).ctrl = s.ctrl := rfl
@[simp] theorem State.setRet_amode : (s.setRet r).amode = s.amode := rfl
@[simp] theorem State.setRet_xb : (s.setRet r).xb = s.xb := rfl
@[simp] theorem State.setRet_ret : (s.setRet r).ret = some r := rfl

@[simp] theorem State.report_memSize : (s.report ev).memSize = s.memSize := rfl
@[simp] theorem State.report_mem : (s.report ev).mem = s.mem := rfl
@[simp] theorem State.report_acc : (s.report ev).acc = s.acc := rfl
@[simp] theorem State.report_pc : (s.report ev).pc = s.pc := rfl
@[simp] theorem State.report_ir : (s.report ev).ir = s.ir := rfl
@[simp] theorem State.report_ctrl : (s.report ev).ctrl = s.ctrl := rfl
@[simp] theorem State.report_amode : (s.report ev).amode = s.amode := rfl
@[simp] theorem State.report_xb : (s.report ev).xb = s.xb := rfl
@[simp] theorem State.report_ret : (s.report ev).ret = some { ran := true, stillRunning := s.running, event := ev } := rfl

@[simp] theorem State.setAcc_running : (s.setAcc w).running = s.running := rfl
@[simp] theorem State.setPc_running : (s.setPc w).running = s.running := rfl
@[simp] theorem State.setIr_running : (s.setIr w).running = s.running := rfl
@[simp] theorem State.setCtrl_running : (s.setCtrl c).running = (c == Ctrl.running) := rfl
@[simp] theorem State.setMem_running : (s.setMem m).running = s.running := rfl
@[simp] theorem State.setRet_running : (s.setRet r).running = s.running := rfl
@[simp] theorem State.report_running : (s.report ev).running = s.running := rfl

end fields

theorem State.running_iff (s : State) : s.running = true ↔ s.ctrl = .running := by
  simp [State.running]

end Sys2Proof.Machine
end

