-- ==== Sys2Proof/Laws/Ops.lean ====
section
/-! SUPPORT. One specification lemma per shared operation. -/

namespace Sys2Proof

theorem MemSize.words_pos (m : MemSize) : 0 < m.words := by cases m <;> decide

theorem MemSize.words_le (m : MemSize) : m.words ≤ 64 := by cases m <;> decide

theorem MemSize.words_ge (m : MemSize) : 32 ≤ m.words := by cases m <;> decide

end Sys2Proof

namespace Sys2Proof.Machine

/-- The effective address is the operand modulo MEM_SIZE. -/
@[simp] theorem effectiveAddress_eq (s : State) (n : Nat) : effectiveAddress s n = n % s.memSize.words := by
  unfold effectiveAddress; split; rfl

theorem effectiveAddress_lt (s : State) (n : Nat) : effectiveAddress s n < s.memSize.words := by
  rw [effectiveAddress_eq]; exact Nat.mod_lt _ (MemSize.words_pos _)

/-- Inside the array a read answers the word. -/
theorem memRead_of_lt {s : State} {a : Nat} (h : a < s.memSize.words) :
    s.memRead a = some (Memory.read s.mem a) := if_pos h

/-- Inside the array a write answers the state with the word replaced. -/
theorem memWrite_of_lt {s : State} {a : Nat} (w : Word) (h : a < s.memSize.words) :
    s.memWrite a w = some (s.setMem (Memory.write s.mem a w)) := if_pos h

/-- The memory operand is always read: the range check never stops it. -/
theorem withOperand_eq (n : Nat) (s : State) (go : Word → Result) :
    withOperand n s go = go (Memory.read s.mem (n % s.memSize.words)) := by
  rw [withOperand, memRead_of_lt (effectiveAddress_lt s n), effectiveAddress_eq]

/-- An accumulator operation: the accumulator, `pc` and the return change, nothing else. -/
theorem accumulate_eq (f : Word → Word → Word) (n : Nat) (s : State) :
    accumulate f n s =
      .next (((s.setAcc (f s.acc (Memory.read s.mem (n % s.memSize.words)))).setPc (s.pc + 1)).report .none) := by
  rw [accumulate, withOperand_eq]; rfl

/-- The fetch below MEM_SIZE loads `ir` and changes nothing else. -/
theorem fetch_of_lt {s : State} (h : s.pc.toNat < s.memSize.words) :
    fetch s = some (s.setIr (Memory.read s.mem s.pc.toNat)) := by
  simp [fetch, memRead_of_lt h]

end Sys2Proof.Machine
end

