-- ==== Sys2Proof/Laws/Exec.lean ====
section
/-! SUPPORT. What each instruction's meaning answers, and what a controller cycle can do, said once. -/

namespace Sys2Proof.Machine

/-- The store answers the state with one word of memory replaced. -/
theorem execSto_eq (n : Nat) (s : State) :
    execSto n s =
      .next (((s.setMem (Memory.write s.mem (n % s.memSize.words) s.acc)).setPc (s.pc + 1)).report .none) := by
  rw [execSto, memWrite_of_lt _ (effectiveAddress_lt s n)]
  simp [retire]

theorem execCmp_eq (n : Nat) (s : State) :
    execCmp n s =
      .next ((s.setPc (s.pc + 1)).report
        (.cmp s.pc (s32 s.acc) (s32 (Memory.read s.mem (n % s.memSize.words))))) := by
  rw [execCmp, withOperand_eq]; rfl

theorem execDiv_eq (n : Nat) (s : State) :
    execDiv n s =
      if s32 (Memory.read s.mem (n % s.memSize.words)) = 0 then
        .next ((s.setPc (s.pc + 1)).report (.divZero s.pc))
      else
        .next (((s.setAcc (divWord s.acc (Memory.read s.mem (n % s.memSize.words)))).setPc (s.pc + 1)).report
          .none) := by
  rw [execDiv, withOperand_eq]; rfl

/-- A cycle below MEM_SIZE of a RUNNING core: the fetch, then the skip or the operation. -/
theorem cycle_of_fetch {s : State} (hr : s.ctrl = .running) (hpc : s.pc.toNat < s.memSize.words) :
    cycle s = afterFetch (s.setIr (Memory.read s.mem s.pc.toNat)) := by
  rw [cycle, if_neg (by simpa using hr), if_neg (by omega), fetch_of_lt hpc]

theorem cycle_of_stopped {s : State} (hr : s.ctrl ≠ .running) : cycle s = idle s := if_pos hr

theorem cycle_of_out_of_range {s : State} (hr : s.ctrl = .running) (hpc : s.memSize.words ≤ s.pc.toNat) :
    cycle s = raiseFetchRange s := by
  rw [cycle, if_neg (by simpa using hr), if_pos hpc]

/-- What an executed instruction can do to a state: the accumulator and, for STO, one word of memory; `pc` by the
increment or by JMP and JRP; `ctrl` by STP alone; and the step's return. -/
structure Executed (i : Instr) (s t : State) : Prop where
  memSize : t.memSize = s.memSize
  amode : t.amode = s.amode
  xb : t.xb = s.xb
  ir : t.ir = s.ir
  memSto : ∀ n, i = .sto n → t.mem = Memory.write s.mem (n % s.memSize.words) s.acc
  memOther : (∀ n, i ≠ .sto n) → t.mem = s.mem
  pcJmp : ∀ n, i = .jmp n → t.pc = BitVec.ofNat 32 n
  pcJrp : ∀ n, i = .jrp n → t.pc = s.pc + BitVec.ofNat 32 n
  pcOther : (∀ n, i ≠ .jmp n) → (∀ n, i ≠ .jrp n) → t.pc = s.pc + 1
  ctrlStp : ∀ n, i = .stp n → t.ctrl = .halted
  ctrlOther : (∀ n, i ≠ .stp n) → t.ctrl = s.ctrl
  ret : ∃ ev, t.ret = some { ran := true, stillRunning := t.running, event := ev }

/-- Every instruction completes, whatever the state, and does no more than `Executed` says. -/
theorem exec_executed (i : Instr) (s : State) : ∃ t, exec i s = .next t ∧ Executed i s t := by
  cases i with
  | jmp n => exact ⟨_, rfl, by constructor <;> simp⟩
  | jrp n => exact ⟨_, rfl, by constructor <;> simp⟩
  | ldn n => exact ⟨_, accumulate_eq (fun _ m => negWord m) n s, by constructor <;> simp⟩
  | sto n => exact ⟨_, execSto_eq n s, by constructor <;> simp⟩
  | sub n => exact ⟨_, accumulate_eq subWord n s, by constructor <;> simp⟩
  | sub2 n => exact ⟨_, accumulate_eq subWord n s, by constructor <;> simp⟩
  | cmp n => exact ⟨_, execCmp_eq n s, by constructor <;> simp⟩
  | stp n => exact ⟨_, rfl, by constructor <;> simp⟩
  | add n => exact ⟨_, accumulate_eq addWord n s, by constructor <;> simp⟩
  | mul n => exact ⟨_, accumulate_eq mulWord n s, by constructor <;> simp⟩
  | div n =>
    refine ⟨_, (execDiv_eq n s).trans (apply_ite _ _ _ _).symm, ?_⟩
    split <;> constructor <;> simp
  | and n => exact ⟨_, accumulate_eq (fun a w => a &&& w) n s, by constructor <;> simp⟩
  | or n => exact ⟨_, accumulate_eq (fun a w => a ||| w) n s, by constructor <;> simp⟩
  | xor n => exact ⟨_, accumulate_eq (fun a w => a ^^^ w) n s, by constructor <;> simp⟩
  | shl n => exact ⟨_, accumulate_eq shlWord n s, by constructor <;> simp⟩
  | shr n => exact ⟨_, accumulate_eq shrWord n s, by constructor <;> simp⟩

end Sys2Proof.Machine
end

