-- ==== Sys2Proof/Laws/Load.lean ====
section
/-! SUPPORT. What `load` can answer. -/

namespace Sys2Proof.Machine

theorem State.isFresh_iff (s : State) :
    s.isFresh = true ↔ s = { State.create s.memSize 0 with xb := s.xb } := by
  simp [State.isFresh]

@[simp] theorem State.isFresh_create (m : MemSize) (k : Nat) : (State.create m k).isFresh = true := by
  simp [State.isFresh, State.create]

/-- Freshness does not read the index/base registers. -/
@[simp] theorem State.isFresh_xb (s : State) (xb : List Word) : State.isFresh { s with xb := xb } = s.isFresh := by
  rw [Bool.eq_iff_iff, State.isFresh_iff, State.isFresh_iff]
  cases s
  simp [State.create]

theorem parseFile_length {size : Nat} {file : List Char} {ws : List Word} (h : parseFile size file = some ws) :
    ws.length ≤ size := by
  unfold parseFile at h
  split at h
  · split at h
    · cases h; assumption
    · cases h
  · cases h

/-- The inversion of a successful load: the state was fresh, and only memory changed. -/
theorem load_success {file : List Char} {s t : State} (h : load file s = .success t) :
    s = { State.create s.memSize 0 with xb := s.xb } ∧
      ∃ ws, parseFile s.memSize.words file = some ws ∧ t = s.setMem (Memory.place s.mem 0 ws) := by
  unfold load at h
  split at h
  · rename_i hf
    refine ⟨(State.isFresh_iff s).1 hf, ?_⟩
    split at h
    · rename_i ws hws
      cases h
      exact ⟨ws, hws, rfl⟩
    · cases h
  · cases h

theorem load_of_parse {file : List Char} {s : State} {ws : List Word} (hf : s.isFresh = true)
    (h : parseFile s.memSize.words file = some ws) :
    load file s = .success (s.setMem (Memory.place s.mem 0 ws)) := by
  simp [load, hf, h]

end Sys2Proof.Machine
end

