-- ==== Sys2Proof/Laws/PerInstr.lean ====
section
/-! SUPPORT. The per-instruction families. `EncodedFields`: the two fields of a well-formed instruction's word are its
operand and its code. -/

namespace Sys2Proof.Laws

/-- The operand field and the code field of the encoded word, for one instruction. -/
def EncodedFields.Statement (i : Instr) : Prop :=
  i.wf = true → operandField (encode i) = i.operand ∧ codeField (encode i) = i.code

theorem EncodedFields.of_code (i : Instr) : EncodedFields.Statement i := by
  intro h
  obtain ⟨ho, hc⟩ := fields_ofNat i.operand (rev4 i.code) ((Instr.wf_iff i).1 h) (rev4_lt _)
  exact ⟨ho, hc.trans (rev4_rev4 _ i.code_lt)⟩

theorem EncodedFields.jmp (n : Nat) : EncodedFields.Statement (.jmp n) := EncodedFields.of_code _
theorem EncodedFields.jrp (n : Nat) : EncodedFields.Statement (.jrp n) := EncodedFields.of_code _
theorem EncodedFields.ldn (n : Nat) : EncodedFields.Statement (.ldn n) := EncodedFields.of_code _
theorem EncodedFields.sto (n : Nat) : EncodedFields.Statement (.sto n) := EncodedFields.of_code _
theorem EncodedFields.sub (n : Nat) : EncodedFields.Statement (.sub n) := EncodedFields.of_code _
theorem EncodedFields.sub2 (n : Nat) : EncodedFields.Statement (.sub2 n) := EncodedFields.of_code _
theorem EncodedFields.cmp (n : Nat) : EncodedFields.Statement (.cmp n) := EncodedFields.of_code _
theorem EncodedFields.stp (n : Nat) : EncodedFields.Statement (.stp n) := EncodedFields.of_code _
theorem EncodedFields.add (n : Nat) : EncodedFields.Statement (.add n) := EncodedFields.of_code _
theorem EncodedFields.mul (n : Nat) : EncodedFields.Statement (.mul n) := EncodedFields.of_code _
theorem EncodedFields.div (n : Nat) : EncodedFields.Statement (.div n) := EncodedFields.of_code _
theorem EncodedFields.and (n : Nat) : EncodedFields.Statement (.and n) := EncodedFields.of_code _
theorem EncodedFields.or (n : Nat) : EncodedFields.Statement (.or n) := EncodedFields.of_code _
theorem EncodedFields.xor (n : Nat) : EncodedFields.Statement (.xor n) := EncodedFields.of_code _
theorem EncodedFields.shl (n : Nat) : EncodedFields.Statement (.shl n) := EncodedFields.of_code _
theorem EncodedFields.shr (n : Nat) : EncodedFields.Statement (.shr n) := EncodedFields.of_code _

end Sys2Proof.Laws
end

