-- ==== Sys2Proof/Laws/Step.lean ====
section
/-! SUPPORT. The four cases of a step, said once; every invariant is derived from them. -/

namespace Sys2Proof.Machine

/-- What one step does. The cases exclude each other and cover every state. -/
inductive StepCase (s t : State) : Prop where
  | stopped (h : s.ctrl ≠ .running)
      (ht : t = s.setRet { ran := false, stillRunning := false, event := .none })
  | fetchRange (h : s.ctrl = .running) (hpc : s.memSize.words ≤ s.pc.toNat)
      (ht : t = (s.setCtrl .faulted).setRet
        { ran := false, stillRunning := false, event := .fetchFault s.pc })
  | skipped (h : s.ctrl = .running) (hpc : s.pc = 0)
      (ht : t = ((s.setIr (Memory.read s.mem 0)).setPc 1).report .skip)
  | executed (h : s.ctrl = .running) (hpc : s.pc ≠ 0) (hlt : s.pc.toNat < s.memSize.words)
      (hex : exec (decode (Memory.read s.mem s.pc.toNat)) (s.setIr (Memory.read s.mem s.pc.toNat)) = .next t)
      (ht : Executed (decode (Memory.read s.mem s.pc.toNat)) (s.setIr (Memory.read s.mem s.pc.toNat)) t)

theorem step_of_executes {s : State} (h : s.ctrl = .running) (hpc : s.pc ≠ 0)
    (hlt : s.pc.toNat < s.memSize.words) :
    step s = exec (decode (Memory.read s.mem s.pc.toNat)) (s.setIr (Memory.read s.mem s.pc.toNat)) := by
  rw [step, cycle_of_fetch h hlt, afterFetch, if_neg (by simpa using hpc), State.setIr_ir]

theorem step_of_skip {s : State} (h : s.ctrl = .running) (hpc : s.pc = 0) :
    step s = .next (((s.setIr (Memory.read s.mem 0)).setPc 1).report .skip) := by
  have h0 : s.pc.toNat = 0 := by simp [hpc]
  rw [step, cycle_of_fetch h (by rw [h0]; exact MemSize.words_pos _), afterFetch, if_pos (by simpa using hpc), h0]
  rfl

/-- Every step answers a next state, by one of the four cases. -/
theorem step_cases (s : State) : ∃ t, step s = .next t ∧ StepCase s t := by
  by_cases hr : s.ctrl = .running
  · by_cases hlt : s.pc.toNat < s.memSize.words
    · by_cases hpc : s.pc = 0
      · exact ⟨_, step_of_skip hr hpc, .skipped hr hpc rfl⟩
      · obtain ⟨t, ht, he⟩ := exec_executed (decode (Memory.read s.mem s.pc.toNat))
          (s.setIr (Memory.read s.mem s.pc.toNat))
        exact ⟨t, (step_of_executes hr hpc hlt).trans ht, .executed hr hpc hlt ht he⟩
    · exact ⟨_, cycle_of_out_of_range hr (by omega), .fetchRange hr (by omega) rfl⟩
  · exact ⟨_, cycle_of_stopped hr, .stopped hr rfl⟩

/-- The inversion of a step that answered `t`. -/
theorem step_inv {s t : State} (h : step s = .next t) : StepCase s t := by
  obtain ⟨t', ht', hc⟩ := step_cases s
  rw [h] at ht'
  cases ht'
  exact hc

end Sys2Proof.Machine
end

