-- ==== Sys2Proof/Laws/Text.lean ====
section
/-! SUPPORT. Serialised words and machine-code files read back. -/

namespace Sys2Proof.Machine

@[simp] theorem bitOfChar_charOfBit (b : Bool) : bitOfChar (charOfBit b) = some b := by
  cases b <;> rfl

theorem charOfBit_ne_newline (b : Bool) : charOfBit b ≠ '\n' := by cases b <;> decide

@[simp] theorem bitsText_length (w : Word) (start count : Nat) : (bitsText w start count).length = count := by
  induction count generalizing start with
  | zero => rfl
  | succ k ih => simp [bitsText, ih]

/-- Reading the bits from `start` on gives the number those bits stand for. -/
theorem bitsValue_bitsText (w : Word) (start count : Nat) :
    bitsValue (bitsText w start count) = some (w.toNat / 2 ^ start % 2 ^ count) := by
  induction count generalizing start with
  | zero => simp [bitsText, bitsValue, Nat.mod_one]
  | succ k ih =>
    have hbit : (w.getLsbD start).toNat = w.toNat / 2 ^ start % 2 := by
      rw [← BitVec.testBit_toNat, Nat.testBit_eq_decide_div_mod_eq]
      rcases Nat.mod_two_eq_zero_or_one (w.toNat / 2 ^ start) with h | h <;> simp [h]
    simp only [bitsText, bitsValue, bitOfChar_charOfBit, ih, hbit]
    rw [pow_succ 2 start, ← Nat.div_div_eq_div_mul, Nat.pow_succ', Nat.mod_mul]

/-- A serialised word parses to the word. -/
@[simp] theorem parseLine_wordText (w : Word) : parseLine (wordText w) = some w := by
  have h : w.toNat / 2 ^ 0 % 2 ^ 32 = w.toNat := by rw [pow_zero, Nat.div_one]; exact Nat.mod_eq_of_lt w.isLt
  rw [parseLine, wordText, if_pos (bitsText_length w 0 32), bitsValue_bitsText, h, Option.map_some,
    BitVec.ofNat_toNat, BitVec.setWidth_eq]

theorem newline_not_mem_bitsText (w : Word) (start count : Nat) : '\n' ∉ bitsText w start count := by
  induction count generalizing start with
  | zero => simp [bitsText]
  | succ k ih => simp [bitsText, ih, (charOfBit_ne_newline _).symm]

/-- A line ends at its newline. -/
theorem splitLines_line (line rest : List Char) (h : '\n' ∉ line) :
    splitLines (line ++ '\n' :: rest) = line :: splitLines rest := by
  induction line with
  | nil => simp [splitLines]
  | cons c line ih =>
    simp only [List.mem_cons, not_or] at h
    simp [splitLines, Ne.symm h.1, ih h.2]

theorem newline_not_mem_wordText (w : Word) : '\n' ∉ wordText w := newline_not_mem_bitsText w 0 32

theorem splitLines_fileText (ws : List Word) : splitLines (fileText ws) = ws.map wordText := by
  induction ws with
  | nil => rfl
  | cons w ws ih =>
    rw [fileText, splitLines_line _ _ (newline_not_mem_wordText w), ih]; rfl

theorem parseLines_map_wordText (ws : List Word) : parseLines (ws.map wordText) = some ws := by
  induction ws with
  | nil => rfl
  | cons w ws ih => simp [parseLines, ih]

end Sys2Proof.Machine
end

