-- ==== Sys2Proof/Tests/Slice0.lean ====
section
/-! SUPPORT. The model's own tests. Expected values are the spec's: the worked encodings of 30_encoding.md (R76, R84), the
vectors of 95_test_vectors.md (named in each comment), and, for each statement with hypotheses, a state that meets them. -/

namespace Sys2Proof.Tests

open Sys2Proof.Machine Sys2Proof.Claims

/-- A RUNNING state of 32 words (95_test_vectors.md, conventions). -/
def st (pc : Word) (acc : Int) (mem : Memory) : State :=
  { State.create .words32 0 with pc := pc, acc := BitVec.ofInt 32 acc, mem := mem }

/-- `pc`, `acc` as a signed number, `ctrl` and the return of a step's next state. -/
def seen (r : Result) : Option (Nat × Int × Ctrl × Option StepReturn) :=
  match r with
  | .next s => some (s.pc.toNat, s.acc.toInt, s.ctrl, s.ret)
  | .fault _ => none
  | .refused _ => none

/-- What a step shows that ran a cycle and left the core RUNNING. -/
def ran (pc : Nat) (acc : Int) (ev : Event) : Option (Nat × Int × Ctrl × Option StepReturn) :=
  some (pc, acc, .running, some { ran := true, stillRunning := true, event := ev })

/-- The word a step's next state holds at an address. -/
def word (r : Result) (a : Nat) : Option Word :=
  match r with
  | .next s => some (Memory.read s.mem a)
  | .fault _ => none
  | .refused _ => none

/-! ## Well-formedness: the one check, at its boundary -/

theorem test_wf_refuses_operand_8192 : Instr.wf (.ldn 8192) = false := by decide
theorem test_wf_refuses_stp_operand_8192 : Instr.wf (.stp 8192) = false := by decide
theorem test_wf_accepts_operand_8191 : Instr.wf (.shr 8191) = true := by decide

/-! ## Decoding: a word of every constructor, its bits 13 to 16 from R76's column "text bits" (bit 13 first), its operand
in bits 12 to 0; written most significant bit first -/

theorem test_decode_jmp : decode 0b00000000000000000000000000000101#32 = .jmp 5 := by decide
theorem test_decode_jrp : decode 0b00000000000000010000000000000010#32 = .jrp 2 := by decide
theorem test_decode_ldn : decode 0b00000000000000001000000000000010#32 = .ldn 2 := by decide
theorem test_decode_sto : decode 0b00000000000000011000000000100011#32 = .sto 35 := by decide
theorem test_decode_sub : decode 0b00000000000000000100000000000011#32 = .sub 3 := by decide
theorem test_decode_sub2 : decode 0b00000000000000010100000000000101#32 = .sub2 5 := by decide
theorem test_decode_cmp : decode 0b00000000000000001100000000000101#32 = .cmp 5 := by decide
theorem test_decode_stp : decode 0b00000000000000011100000000000000#32 = .stp 0 := by decide
theorem test_decode_add : decode 0b00000000000000000010000000000011#32 = .add 3 := by decide
theorem test_decode_mul : decode 0b00000000000000010010000000001000#32 = .mul 8 := by decide
theorem test_decode_div : decode 0b00000000000000001010000000001011#32 = .div 11 := by decide
theorem test_decode_and : decode 0b00000000000000011010000000001001#32 = .and 9 := by decide
theorem test_decode_or : decode 0b00000000000000000110000000001010#32 = .or 10 := by decide
theorem test_decode_xor : decode 0b00000000000000010110000000001011#32 = .xor 11 := by decide
theorem test_decode_shl : decode 0b00000000000000001110000000001100#32 = .shl 12 := by decide
theorem test_decode_shr : decode 0b00000000000000011110000000001101#32 = .shr 13 := by decide

/-- DEC-4 and DEC-5: bits 17 to 31 are ignored. -/
theorem test_decode_ignores_high_bits :
    decode 0xFFFE0005#32 = .jmp 5 ∧ decode 0xFFFFFFFB#32 = .shr 8187 := by decide

/-- R84: `STO 35` and `SHR 13` encode to 98339 and 122893. -/
theorem test_encode_worked : encode (.sto 35) = 98339#32 ∧ encode (.shr 13) = 122893#32 := by decide

theorem test_table_word : decodeTableWord 32 0x1E00D = some (.shr 13) := by decide

/-! ## One step of each instruction (95_test_vectors.md L2.4; the vector is in the name) -/

theorem test_jmp_4 : seen (step (st 1 0 [(1, 0x01FFF)])) = ran 8191 0 .none := by decide
theorem test_jrp_5 : seen (step (st 3 0 [(3, 0x11FFF)])) = ran 8194 0 .none := by decide
theorem test_ldn_4 : seen (step (st 1 0 [(1, 0x08005), (5, 0x80000000)])) = ran 2 (-2147483648) .none := by decide
theorem test_ldn_6 : seen (step (st 1 0 [(1, 0x08025), (5, 4)])) = ran 2 (-4) .none := by decide
theorem test_sto_2 : word (step (st 1 42 [(1, 0x18025)])) 5 = some 42 := by decide
theorem test_sto_3 : word (step (st 1 42 [(1, 0x18001)])) 1 = some 42 := by decide
theorem test_sub_2 : seen (step (st 1 3 [(1, 0x04005), (5, 10)])) = ran 2 (-7) .none := by decide
theorem test_sub_3 : seen (step (st 1 (-2147483648) [(1, 0x04005), (5, 1)])) = ran 2 2147483647 .none := by decide
theorem test_sub2_1 : seen (step (st 1 10 [(1, 0x14005), (5, 3)])) = ran 2 7 .none := by decide
theorem test_cmp_1 : seen (step (st 1 10 [(1, 0x0C005), (5, 3)])) = ran 2 10 (.cmp 1 10 3) := by decide
theorem test_cmp_2 : seen (step (st 1 (-1) [(1, 0x0C005)])) = ran 2 (-1) (.cmp 1 (-1) 0) := by decide
theorem test_stp_2 : seen (step (st 1 9 [(1, 0x1C07B)])) =
    some (2, 9, .halted, some { ran := true, stillRunning := false, event := .halt 1 }) := by decide
theorem test_add_2 : seen (step (st 1 2147483647 [(1, 0x02005), (5, 1)])) = ran 2 (-2147483648) .none := by decide
theorem test_mul_2 : seen (step (st 1 (-6) [(1, 0x12005), (5, 7)])) = ran 2 (-42) .none := by decide
theorem test_mul_7 : seen (step (st 1 46341 [(1, 0x12005), (5, 46341)])) = ran 2 (-2147479015) .none := by decide
theorem test_div_2 : seen (step (st 1 (-7) [(1, 0x0A005), (5, 2)])) = ran 2 (-3) .none := by decide
theorem test_div_5 : seen (step (st 1 7 [(1, 0x0A005)])) = ran 2 7 (.divZero 1) := by decide
theorem test_and_3 : seen (step (st 1 (-8) [(1, 0x1A005), (5, 7)])) = ran 2 0 .none := by decide
theorem test_or_3 : seen (step (st 1 (-8) [(1, 0x06005), (5, 7)])) = ran 2 (-1) .none := by decide
theorem test_xor_2 : seen (step (st 1 (-1) [(1, 0x16005), (5, 5)])) = ran 2 (-6) .none := by decide
theorem test_shl_2 : seen (step (st 1 3 [(1, 0x0E005), (5, 31)])) = ran 2 (-2147483648) .none := by decide
theorem test_shl_6 : seen (step (st 1 5 [(1, 0x0E005), (5, 33)])) = ran 2 10 .none := by decide
theorem test_shr_2 : seen (step (st 1 (-16) [(1, 0x1E005), (5, 2)])) = ran 2 (-4) .none := by decide
theorem test_shr_7 : seen (step (st 1 (-16) [(1, 0x1E005), (5, 0xFFFFFFFF)])) = ran 2 (-1) .none := by decide

/-! ## The controller (L2.2) -/

theorem test_ctl_1_skip : seen (step (st 0 0 [(0, 8195), (3, 5)])) = ran 1 0 .skip := by decide
theorem test_ctl_2_fetch_fault : seen (step (st 32 0 [])) =
    some (32, 0, .faulted, some { ran := false, stillRunning := false, event := .fetchFault 32 }) := by decide
theorem test_ctl_3_last_word_of_64 :
    seen (step { st 63 0 [(63, 0x1C000)] with memSize := .words64 }) =
      some (64, 0, .halted, some { ran := true, stillRunning := false, event := .halt 63 }) := by decide
theorem test_ctl_5_halted : seen (step { st 3 0 [] with ctrl := .halted }) =
    some (3, 0, .halted, some { ran := false, stillRunning := false, event := .none }) := by decide
theorem test_ctl_8_operand_at_zero :
    seen (step (st 31 0 [(0, 7), (31, 0x02000)])) = ran 32 7 .none := by decide
theorem test_placed_word_runs_from_reset :
    seen (step (State.reset.withFetchWord 32 0x1C000)) =
      some (2, 0, .halted, some { ran := true, stillRunning := false, event := .halt 1 }) := by decide

/-! ## Memory: the canonical form, and what the list is not -/

theorem test_write_zero_removes : Memory.write [(1, 3), (5, 4)] 5 0 = [(1, 3)] := by decide
theorem test_wf_refuses_zero_entry : Memory.wf 32 [(1, 0)] = false := by decide
theorem test_wf_refuses_disorder : Memory.wf 32 [(5, 1), (1, 1)] = false := by decide
theorem test_wf_refuses_address_32 : Memory.wf 32 [(32, 1)] = false := by decide

/-! ## The loader (L2.3) and the text of a word (R82, R84) -/

theorem test_text_ldn_2 : wordText 32770 = "01000000000000010000000000000000".toList := by decide
theorem test_ld_1 : parseFile 32 ("01000000000000010000000000000000\n10100000000000000000000000000000\n".toList) =
    some [32770, 5] := by decide
theorem test_ld_2 : parseFile 32 (List.replicate 31 '0' ++ ['\n']) = none := by decide
theorem test_ld_5 : parseFile 32 (List.replicate 32 '0' ++ ['\r', '\n']) = none := by decide
theorem test_ld_6_and_7 : parseFile 32 (fileText (List.replicate 33 5)) = none ∧
    parseFile 32 (fileText (List.replicate 32 5)) = some (List.replicate 32 5) := by decide
theorem test_ld_8_and_9 : parseFile 32 [] = some [] ∧ parseFile 32 (wordText 5) = some [5] := by decide

/-! ## The assembler (L1-2 to L1-5) -/

theorem test_asm_l1_2 : passOne (addressedLines "A: LDN 3\n; comment\nB: STP\n".toList) 0 [] =
    .ok [("A".toList, 0), ("B".toList, 1)] := by decide
theorem test_asm_l1_3 : assembleWords "L: STP\nL: STP\n".toList = .error (.duplicateLabel "L".toList) := by decide
theorem test_asm_l1_4 : assembleWords "JMP NOWHERE".toList = .error (.undefinedSymbol "NOWHERE".toList) := by decide
theorem test_asm_l1_5 : assembleWords "START: LDN 2\nADD 3\nSTP\nVAR 5\nVAR -5\n".toList =
    .ok [0x8002, 0x2003, 0x1C000, 5, 0xFFFFFFFB] := by decide
theorem test_asm_d22 : assembleWords "ADD 8192".toList = .error .operandRange ∧
    assembleWords "ADD".toList = .error .operandMissing ∧
    assembleWords "add 1".toList = .error (.unknownMnemonic "add".toList) ∧
    assembleWords "L:\nSTP 9\nVAR L\n".toList = .ok [0, 0x1C000, 0] := by decide

/-! ## Witnesses: for each statement with hypotheses, inputs that meet them together, each clause at a boundary -/

theorem witness_DecodeOfEncodeIsIdentity : Instr.wf (.mul 8191) = true := by decide
theorem witness_OpcodeMapIsTheTable : (8191 : Nat) ≤ 8191 := by decide
theorem witness_JmpSetsPcToOperand :
    (32 : Nat) ≤ 8191 ∧ (st 1 0 []).ctrl = .running ∧ (st 1 0 []).memSize.words ≤ 32 := by decide
theorem witness_JrpAddsOperandToPc :
    (1 : Nat) ≤ 8191 ∧ (st 31 0 []).pc.toNat + 1 < 2 ^ 32 ∧ (st 31 0 []).pc.toNat < (st 31 0 []).memSize.words ∧ (st 31 0 []).ctrl = .running ∧
      (st 31 0 []).memSize.words ≤ (st 31 0 []).pc.toNat + 1 := by decide
theorem witness_StoWritesTheAccumulator : Memory.wf (st 1 3 [(31, 9)]).memSize.words (st 1 3 [(31, 9)]).mem = true := by
  decide
theorem witness_DivDividesOrReportsZero :
    (operandWord (st 1 7 []) 5).toInt = 0 ∧ (operandWord (st 1 7 [(5, 1)]) 5).toInt ≠ 0 := by decide
theorem witness_StpHalts : ∃ t, exec (.stp 0) (st 1 0 []) = .next t := ⟨_, rfl⟩
theorem witness_ArithmeticWrapsModuloWord :
    ExactResult (.div 5) (st 1 (-2147483648) [(5, 0xFFFFFFFF)]).acc.toInt
      (operandWord (st 1 (-2147483648) [(5, 0xFFFFFFFF)]) (Instr.div 5).operand).toInt 2147483648 :=
  .inr (.inr (.inr (.inr ⟨5, rfl, by decide, by decide⟩)))
theorem witness_ArithmeticWrapsModuloWord_fits :
    ExactResult (.add 5) (st 1 2147483646 [(5, 1)]).acc.toInt (operandWord (st 1 2147483646 [(5, 1)]) 5).toInt 2147483647 :=
  .inr (.inr (.inl ⟨5, rfl, by decide⟩))
theorem witness_DivRoundsTowardZero :
    (st 1 (-7) [(5, 2)]).acc = BitVec.ofInt 32 (-7) ∧ operandWord (st 1 (-7) [(5, 2)]) 5 = BitVec.ofInt 32 2 ∧
      (operandWord (st 1 (-7) [(5, 2)]) 5).toInt ≠ 0 := by decide
theorem witness_AccumulatorInstructionsFrame : (.shr 5 : Instr) ∈ accumulatorInstrs 5 := by decide
theorem witness_StoreFrame : Memory.wf (st 1 3 []).memSize.words (st 1 3 []).mem = true ∧
    (0 : Nat) ≠ effectiveAddress (st 1 3 []) 33 := by decide
theorem witness_TransferCompareStopFrame :
    (.cmp 5 : Instr) ∈ ([.jmp 5, .jrp 5, .cmp 5, .stp 5] : List Instr) ∧ (.cmp 5 : Instr) ≠ .stp 5 := by decide
theorem witness_StepRunsTheDecodedInstruction : Executes (st 31 0 [(31, 0x02005)]) (.add 5) := by
  refine ⟨?_, ?_, ?_, ?_⟩ <;> decide
theorem witness_FetchOutsideMemoryFaults :
    (st 32 0 []).ctrl = .running ∧ (st 32 0 []).memSize.words ≤ (st 32 0 []).pc.toNat := by decide
theorem witness_AddressZeroIsSkipped : (st 0 0 [(0, 8195)]).ctrl = .running ∧ (st 0 0 [(0, 8195)]).pc = 0 := by decide
theorem witness_AddressZeroIsSkipped_jmp : Executes (st 31 0 []) (.jmp 0) := by
  refine ⟨?_, ?_, ?_, ?_⟩ <;> decide
theorem witness_ControllerStateTransitions_running :
    (st 1 0 [(1, 0x1C000)]).ctrl = .running ∧ ∃ t, step (st 1 0 [(1, 0x1C000)]) = .next t :=
  ⟨by decide, _, rfl⟩
theorem witness_ControllerStateTransitions_load : ∃ t, load [] (State.create .words32 0) = .success t := ⟨_, rfl⟩
theorem witness_ControllerStateTransitions_stopped : ({ st 1 0 [] with ctrl := .faulted }).ctrl ≠ .running := by decide
theorem witness_PcAdvancesUnlessWritten :
    (∃ t, exec (.stp 5) (st 1 0 []) = .next t) ∧ (∃ t, exec (.jmp 5) (st 1 0 []) = .next t) ∧
      (∃ t, exec (.jrp 5) (st 1 0 []) = .next t) ∧ (st 1 0 []).pc.toNat + 5 < 2 ^ 32 ∧ (∀ n, (.stp 5 : Instr) ≠ .jmp n) ∧ ∀ n, (.stp 5 : Instr) ≠ .jrp n :=
  ⟨⟨_, rfl⟩, ⟨_, rfl⟩, ⟨_, rfl⟩, by decide, by simp, by simp⟩
theorem witness_OnlyStoWritesMemory : Memory.wf 32 (st 1 3 [(1, 0x18005)]).mem = true ∧
    word (step (st 1 3 [(1, 0x18005)])) 5 ≠ some (Memory.read (st 1 3 [(1, 0x18005)]).mem 5) := by decide
theorem witness_OnlyFetchWritesInstructionRegister :
    (∃ t, step (st 1 0 [(1, 5)]) = .next t) ∧ ∃ t, exec (.add 5) (st 1 0 []) = .next t := ⟨⟨_, rfl⟩, ⟨_, rfl⟩⟩
theorem witness_IndexRegistersAreInert :
    (∃ t, exec (.add 5) (State.create .words64 3) = .next t) ∧ (∃ t, step (State.create .words64 3) = .next t) ∧
      (∃ t, load (wordText 5) (State.create .words64 3) = .success t) ∧
      load ['2'] (State.create .words64 3) = .formatError ∧ load [] (st 1 0 []) = .notFresh :=
  ⟨⟨_, rfl⟩, ⟨_, rfl⟩, ⟨_, rfl⟩, by decide, by decide⟩
theorem witness_ParametersNeverChange :
    (∃ t, step (st 1 0 []) = .next t) ∧ ∃ t, load [] (State.create .words32 0) = .success t := ⟨⟨_, rfl⟩, ⟨_, rfl⟩⟩
theorem witness_StoredWordIsFetched :
    ∃ t, exec (.sto 33) (st 5 0x1C000 []) = .next t ∧ Memory.wf 32 (st 5 0x1C000 []).mem = true ∧
      (t.setPc 1).mem = t.mem ∧ (t.setPc 1).memSize = t.memSize ∧ (t.setPc 1).ctrl = .running ∧
      (t.setPc 1).pc ≠ 0 ∧ (t.setPc 1).pc.toNat = effectiveAddress (st 5 0x1C000 []) 33 :=
  ⟨_, rfl, by decide, by decide, by decide, by decide, by decide, by decide⟩
theorem witness_ReadReturnsTheLastWrite :
    ([5, 0, 7] : List Word).length ≤ 32 ∧ ∀ p ∈ ([(31, 4), (0, 0), (31, 6)] : List (Nat × Word)), p.1 < 32 := by decide
theorem witness_CanonicalMemoriesWithEqualReadsAreEqual :
    Memory.wf 32 [(0, 1), (31, 2)] = true ∧ ∀ a < 32, Memory.read [(0, 1), (31, 2)] a = Memory.read [(0, 1), (31, 2)] a :=
  ⟨by decide, fun _ _ => rfl⟩
theorem witness_StepKeepsTheInvariant :
    (st 31 5 [(31, 0x11FFF)]).Inv ∧ ∃ t, step (st 31 5 [(31, 0x11FFF)]) = .next t :=
  ⟨⟨by decide, by decide, rfl, fun _ h => nomatch h⟩, _, rfl⟩
theorem witness_ReachableStatesMeetTheInvariant : Reachable (State.create .words64 2) := .create _ _
theorem witness_UnreadStateIsUnobservable :
    (st 1 0 []).AgreesWith { st 1 0 [] with ir := 7, xb := [1] } ∧ ∃ t, step (st 1 0 []) = .next t :=
  ⟨⟨rfl, rfl, rfl, rfl, rfl, rfl⟩, _, rfl⟩
theorem witness_StepRefinesTheFlatMachine : State.reset.Inv := ⟨by decide, by decide, rfl, fun _ h => nomatch h⟩
theorem witness_FirstInstructionIsAtAddressOne :
    ∃ s, load (fileText [0, 0x1C000]) (State.create .words32 0) = .success s :=
  ⟨_, load_of_parse (State.isFresh_create _ _) (ws := [0, 0x1C000]) (by decide)⟩
theorem witness_LoadWritesEveryLine :
    (∀ l ∈ [List.replicate 32 '1'], ValidLine l) ∧ [List.replicate 32 '1'].length ≤ MemSize.words32.words ∧
      List.replicate 32 '1' = (joinLines [List.replicate 32 '1']).dropLast := by
  refine ⟨fun l hl => ?_, by decide, by decide⟩
  rw [List.mem_singleton.1 hl]
  exact ⟨rfl, fun c hc => .inr (List.eq_of_mem_replicate hc)⟩
theorem witness_LoadChecksEveryLine : (∀ l ∈ [['1', '\r'], wordText 5], '\n' ∉ l) ∧
    [['1', '\r'], wordText 5].getLast? ≠ some [] := by decide
theorem witness_LoadIsDeclinedAfterAStep :
    (∃ t, step State.reset = .next t) ∧ ({ State.reset with ctrl := .halted }).ctrl ≠ .running := ⟨⟨_, rfl⟩, by decide⟩
theorem witness_HostRunEndsWhenNotRunning :
    (hostTrace 3 (st 1 0 [(1, 0x1C000)])).length < 3 ∧
      (hostTrace 3 (st 1 0 [(1, 0x1C000)])).getLast? =
        some { ran := true, stillRunning := false, event := .halt 1 } := by decide
theorem witness_PlacedWordRunsNext : (0x1C000 : Nat) < 2 ^ 32 ∧ Memory.rising (st 40 0 [(1, 2), (5, 3)]).mem = true := by decide
theorem witness_ToolchainWords : -(2 ^ 31) ≤ (-2147483648 : Int) ∧ (-2147483648 : Int) ≤ 2 ^ 31 - 1 := by decide
theorem witness_SymbolTableIsUniqueAndBounded :
    passOne [['A', ':'], ['B', ':']] 0 [] = .ok [(['A'], 0), (['B'], 1)] ∧
      passOne [['A', ':'], ['A', ':']] 0 [] = .error (.duplicateLabel ['A']) := by decide
theorem witness_AssembledFileLoads : ∃ out, assemble "STP\n".toList = .ok out ∧
    (addressedLines "STP\n".toList).length ≤ MemSize.words32.words := ⟨_, rfl, by decide⟩

end Sys2Proof.Tests
end

section
/-! PROOFS. What a step does to `ctrl`, `ir` and the fields that no rule reads; the statements on R27, R29 and R33. -/

namespace Sys2Proof.Machine

open Sys2Proof.Claims

/-! ## The controller state (R29) -/

/-- On a RUNNING core STP, and no other instruction, leaves the controller HALTED. -/
theorem Executed.ctrl_eq_halted_iff {i : Instr} {s t : State} (he : Executed i s t) (hr : s.ctrl = .running) :
    t.ctrl = .halted ↔ ∃ n, i = .stp n := by
  by_cases hi : ∃ n, i = .stp n
  · obtain ⟨n, hn⟩ := hi
    simp [he.ctrlStp n hn, hn]
  · have hkept : t.ctrl = s.ctrl := he.ctrlOther (not_exists.1 hi)
    simp [hkept, hr, hi]

theorem Executed.ctrl_ne_faulted {i : Instr} {s t : State} (he : Executed i s t) (hr : s.ctrl = .running) :
    t.ctrl ≠ .faulted := by
  by_cases hi : ∃ n, i = .stp n
  · obtain ⟨n, hn⟩ := hi
    simp [he.ctrlStp n hn]
  · have hkept : t.ctrl = s.ctrl := he.ctrlOther (not_exists.1 hi)
    simp [hkept, hr]

theorem step_ctrl_eq_halted_iff {s t : State} (hr : s.ctrl = .running) (h : step s = .next t) :
    t.ctrl = .halted ↔ ∃ n, Executes s (.stp n) := by
  cases step_inv h with
  | stopped hstop _ => exact absurd hr hstop
  | fetchRange _ hpc ht => simp [ht, Executes, Nat.not_lt.2 hpc]
  | skipped _ hpc ht => simp [ht, hr, Executes, hpc]
  | executed _ hpc hlt _ he =>
    rw [he.ctrl_eq_halted_iff (by simpa using hr)]
    exact exists_congr fun n => ⟨fun hd => ⟨hr, hpc, hlt, hd⟩, fun ⟨_, _, _, hd⟩ => hd⟩

theorem step_ctrl_eq_faulted_iff {s t : State} (hr : s.ctrl = .running) (h : step s = .next t) :
    t.ctrl = .faulted ↔ s.memSize.words ≤ s.pc.toNat := by
  cases step_inv h with
  | stopped hstop _ => exact absurd hr hstop
  | fetchRange _ hpc ht => simp [ht, hpc]
  | skipped _ hpc ht => simp [ht, hr, hpc, s.memSize.words_pos.ne']
  | executed _ _ hlt _ he => exact iff_of_false (he.ctrl_ne_faulted (by simpa using hr)) (by omega)

theorem step_of_stopped {s : State} (hs : s.ctrl ≠ .running) :
    step s = .next (s.setRet { ran := false, stillRunning := false, event := .none }) :=
  cycle_of_stopped hs

theorem load_ctrl {file : List Char} {s t : State} (h : load file s = .success t) : t.ctrl = s.ctrl := by
  obtain ⟨-, ws, -, rfl⟩ := load_success h
  rfl

/-- Settles O30, from the four cases of a step and the inversion of a successful load. -/
theorem controllerStateTransitions : Obligations.ControllerStateTransitions := fun s =>
  ⟨s.running_iff, fun hr _ h => ⟨step_ctrl_eq_halted_iff hr h, step_ctrl_eq_faulted_iff hr h⟩,
    step_of_stopped, fun _ _ h => load_ctrl h⟩

/-! ## The instruction register (R27) -/

/-- What `ir` holds after the fetch stage: the whole word at `pc` if a fetch takes place, else what it held (R100). -/
def State.irAfterFetch (s : State) : Word :=
  if s.ctrl = .running ∧ s.pc.toNat < s.memSize.words then Memory.read s.mem s.pc.toNat else s.ir

theorem State.irAfterFetch_of_fetch {s : State} (hr : s.ctrl = .running) (hlt : s.pc.toNat < s.memSize.words) :
    s.irAfterFetch = Memory.read s.mem s.pc.toNat := if_pos ⟨hr, hlt⟩

theorem State.irAfterFetch_of_stopped {s : State} (hs : s.ctrl ≠ .running) : s.irAfterFetch = s.ir :=
  if_neg fun hf => hs hf.1

theorem State.irAfterFetch_of_out_of_range {s : State} (hpc : s.memSize.words ≤ s.pc.toNat) :
    s.irAfterFetch = s.ir := if_neg fun hf => Nat.not_lt.2 hpc hf.2

/-- A fetch at address 0 takes place: the array is not empty. -/
theorem State.irAfterFetch_of_zero {s : State} (hr : s.ctrl = .running) (hpc : s.pc = 0) :
    s.irAfterFetch = Memory.read s.mem 0 := by
  have h0 : s.pc.toNat = 0 := by simp [hpc]
  rw [State.irAfterFetch_of_fetch hr (h0 ▸ s.memSize.words_pos), h0]

theorem step_ir {s t : State} (h : step s = .next t) : t.ir = s.irAfterFetch := by
  cases step_inv h with
  | stopped hstop ht => simp [ht, State.irAfterFetch_of_stopped hstop]
  | fetchRange _ hpc ht => simp [ht, State.irAfterFetch_of_out_of_range hpc]
  | skipped hr hpc ht => simp [ht, State.irAfterFetch_of_zero hr hpc]
  | executed hr _ hlt _ he => simp [he.ir, State.irAfterFetch_of_fetch hr hlt]

/-! ## The fields that no rule reads: `ir` after the decode, the index/base registers, the last return (R28, R33, R38) -/

/-- A state with other values in the fields that no instruction reads. -/
def State.withUnread (s : State) (ir : Word) (xb : List Word) (ret : Option StepReturn) : State :=
  { s with ir := ir, xb := xb, ret := ret }

/-- The inversion of a completed instruction. -/
theorem exec_inv {i : Instr} {s t : State} (h : exec i s = .next t) : Executed i s t := by
  obtain ⟨t', ht', he⟩ := exec_executed i s
  cases h.symm.trans ht'
  exact he

section unread
variable {s t : State} {ir : Word} {xb : List Word} {ret : Option StepReturn}

theorem accumulate_withUnread {f : Word → Word → Word} {n : Nat} (h : accumulate f n s = .next t) :
    accumulate f n (s.withUnread ir xb ret) = .next (t.withUnread ir xb t.ret) := by
  rw [accumulate_eq] at h ⊢
  cases h
  rfl

/-- An instruction does the same whatever the unread fields hold: it keeps `ir` and the index/base registers, and it
replaces the last return by its own. -/
theorem exec_withUnread {i : Instr} (h : exec i s = .next t) :
    exec i (s.withUnread ir xb ret) = .next (t.withUnread ir xb t.ret) := by
  cases i with
  | jmp n | jrp n | stp n => cases h; rfl
  | ldn n => exact accumulate_withUnread (f := fun _ m => negWord m) h
  | sub n | sub2 n | add n | mul n | and n | or n | xor n | shl n | shr n => exact accumulate_withUnread h
  | sto n =>
    cases (execSto_eq n s).symm.trans h
    exact execSto_eq n _
  | cmp n =>
    cases (execCmp_eq n s).symm.trans h
    exact execCmp_eq n _
  | div n =>
    have hs := (execDiv_eq n s).symm.trans h
    refine (execDiv_eq n _).trans ?_
    by_cases hz : s32 (Memory.read s.mem (n % s.memSize.words)) = 0
    · rw [if_pos hz] at hs
      cases hs
      exact if_pos hz
    · rw [if_neg hz] at hs
      cases hs
      exact if_neg hz

/-- A step does the same whatever the unread fields hold: it keeps the index/base registers, and `ir` is what the fetch
stage leaves there. -/
theorem step_withUnread (h : step s = .next t) :
    step (s.withUnread ir xb ret) =
      .next (t.withUnread (s.withUnread ir xb ret).irAfterFetch xb t.ret) := by
  cases step_inv h with
  | stopped hstop ht =>
    rw [State.irAfterFetch_of_stopped (s := s.withUnread ir xb ret) hstop, ht]
    exact step_of_stopped hstop
  | fetchRange hr hpc ht =>
    rw [State.irAfterFetch_of_out_of_range (s := s.withUnread ir xb ret) hpc, ht]
    exact cycle_of_out_of_range hr hpc
  | skipped hr hpc ht =>
    rw [State.irAfterFetch_of_zero (s := s.withUnread ir xb ret) hr hpc, ht]
    exact step_of_skip hr hpc
  | executed hr hpc hlt hex _ =>
    rw [State.irAfterFetch_of_fetch (s := s.withUnread ir xb ret) hr hlt]
    calc step (s.withUnread ir xb ret)
      _ = exec _ ((s.setIr _).withUnread _ xb ret) := step_of_executes hr hpc hlt
      _ = .next (t.withUnread _ xb t.ret) := exec_withUnread hex

end unread

/-- Settles O33: a step's `ir` is the fetch stage's, and an instruction does the same whatever `ir` holds. -/
theorem onlyFetchWritesInstructionRegister : Obligations.OnlyFetchWritesInstructionRegister := by
  refine ⟨fun s t h => step_ir h, fun i s t w h => ⟨(exec_inv h).ir, ?_⟩⟩
  calc exec i { s with ir := w }
    _ = .next (t.withUnread w s.xb t.ret) := exec_withUnread h
    _ = .next { t with ir := w } := by rw [← (exec_inv h).xb]; rfl

/-! ## The index/base registers (R33) -/

theorem step_xb {s t : State} (h : step s = .next t) : t.xb = s.xb := by
  cases step_inv h with
  | stopped _ ht | fetchRange _ _ ht | skipped _ _ ht => simp [ht]
  | executed _ _ _ _ he => exact he.xb

theorem exec_with_xb {i : Instr} {s t : State} (xb : List Word) (h : exec i s = .next t) :
    exec i { s with xb := xb } = .next { t with xb := xb } := by
  calc exec i { s with xb := xb }
    _ = .next (t.withUnread s.ir xb t.ret) := exec_withUnread h
    _ = .next { t with xb := xb } := by rw [← (exec_inv h).ir]; rfl

theorem step_with_xb {s t : State} (xb : List Word) (h : step s = .next t) :
    step { s with xb := xb } = .next { t with xb := xb } := by
  calc step { s with xb := xb }
    _ = .next (t.withUnread s.irAfterFetch xb t.ret) := step_withUnread h
    _ = .next { t with xb := xb } := by rw [← step_ir h]; rfl

theorem load_eq_formatError_iff (file : List Char) (s : State) :
    load file s = .formatError ↔ s.isFresh = true ∧ parseFile s.memSize.words file = none := by
  unfold load
  split
  · split <;> simp_all
  · simp_all

theorem load_eq_notFresh_iff (file : List Char) (s : State) : load file s = .notFresh ↔ s.isFresh = false := by
  unfold load
  split
  · split <;> simp_all
  · simp_all

/-- A load that succeeds does so whatever the index/base registers hold, and keeps them. -/
theorem load_success_with_xb {file : List Char} {s t : State} (xb : List Word) (h : load file s = .success t) :
    t.xb = s.xb ∧ load file { s with xb := xb } = .success { t with xb := xb } := by
  obtain ⟨hfresh, ws, hws, rfl⟩ := load_success h
  have hfresh' : State.isFresh { s with xb := xb } = true := by rwa [State.isFresh_xb, State.isFresh_iff]
  exact ⟨rfl, load_of_parse hfresh' hws⟩

/-- Settles O36, operation by operation: an instruction, a step, each answer of a load, and creation. -/
theorem indexRegistersAreInert : Obligations.IndexRegistersAreInert := by
  refine ⟨fun i s t xb h => ⟨(exec_inv h).xb, exec_with_xb xb h⟩, fun s t xb h => ⟨step_xb h, step_with_xb xb h⟩,
    fun file s xb => ⟨fun t h => load_success_with_xb xb h, fun h => ?formatError, fun h => ?notFresh⟩, fun _ _ => rfl⟩
  case formatError =>
    rw [load_eq_formatError_iff] at h ⊢
    rwa [State.isFresh_xb]
  case notFresh =>
    rw [load_eq_notFresh_iff] at h ⊢
    rwa [State.isFresh_xb]

end Sys2Proof.Machine
end

section
/-! PROOFS. The statements on 30_encoding.md: the pair the decoder reads (R71 to R73), the opcode map (R76), a serialised
word (R83) and the symbol table (R86, R87). -/

namespace Sys2Proof

/-- Settles O1: the model's two fields are R71's sum and R72's low bits, and the instruction has them as its own. -/
theorem decoderReadsCodeAndOperand : Obligations.DecoderReadsCodeAndOperand := fun w =>
  ⟨congrArg (Prod.mk (codeField w)) (operandField_eq w), decode_code w, decode_operand w,
    Nat.le_of_lt_succ (codeField_lt w), Nat.le_of_lt_succ (operandField_lt w)⟩

/-- R76's `match + n`: the match of a code is the reversed code above the operand field (R80). -/
theorem code_and_word_of_match {i : Instr} {code bits n : Nat} (hcode : i.code = code) (hn : i.operand = n)
    (hbits : rev4 code * 2 ^ 13 = bits) : i.code = code ∧ encode i = BitVec.ofNat 32 (bits + n) :=
  ⟨hcode, by rw [encode, hcode, hn, hbits, Nat.add_comm]⟩

/-- Settles O4: in each row of the map the match is the row's reversed code above the operand field. -/
theorem opcodeMapIsTheTable : Obligations.OpcodeMapIsTheTable := by
  intro p hp n _
  fin_cases hp <;> exact code_and_word_of_match rfl rfl (by decide)

end Sys2Proof

namespace Sys2Proof.Machine

/-! ## A serialised word (R83) -/

theorem getElem?_bitsText (w : Word) {start count j : Nat} (hj : j < count) :
    (bitsText w start count)[j]? = some (charOfBit (w.getLsbD (start + j))) := by
  induction count generalizing start j with
  | zero => exact absurd hj j.not_lt_zero
  | succ count ih =>
    cases j with
    | zero => rfl
    | succ j =>
      rw [bitsText, List.getElem?_cons_succ, ih (Nat.lt_of_succ_lt_succ hj), Nat.add_right_comm, Nat.add_assoc]

theorem getElem?_wordText (w : Word) {j : Nat} (hj : j < 32) : (wordText w)[j]? = some (charOfBit (w.getLsbD j)) := by
  rw [wordText, getElem?_bitsText w hj, Nat.zero_add]

/-- Settles O55, character by character; the reading back is `parseLine_wordText`. -/
theorem serialisedWordIsBitZeroFirst : Obligations.SerialisedWordIsBitZeroFirst := fun w =>
  ⟨bitsText_length w 0 32, fun _ hj => getElem?_wordText w hj, parseLine_wordText w⟩

/-! ## The symbol table (R86, R87) -/

/-- The labels of the lines, each with the address of its line, where the first line has address `address` (R86). -/
def labelBindings (lines : List (List Char)) (address : Nat) : SymbolTable :=
  (lines.zipIdx address).filterMap fun p => ((splitLabel p.1).1).map fun name => (name, p.2)

theorem labelBindings_cons_of_none {line : List Char} (lines : List (List Char)) (address : Nat)
    (h : (splitLabel line).1 = none) : labelBindings (line :: lines) address = labelBindings lines (address + 1) := by
  simp [labelBindings, h]

theorem labelBindings_cons_of_some {line name : List Char} (lines : List (List Char)) (address : Nat)
    (h : (splitLabel line).1 = some name) :
    labelBindings (line :: lines) address = (name, address) :: labelBindings lines (address + 1) := by
  simp [labelBindings, h]

/-- What R87 asks of a symbol table: unique names, at most 100 entries. -/
def SymbolTable.Legal (table : SymbolTable) : Prop :=
  (table.map Prod.fst).Nodup ∧ table.length ≤ Config.symtabCapacity

theorem SymbolTable.Legal.append_left {table more : SymbolTable} (h : SymbolTable.Legal (table ++ more)) :
    SymbolTable.Legal table := by
  obtain ⟨hnodup, hlength⟩ := h
  rw [List.map_append] at hnodup
  rw [List.length_append] at hlength
  exact ⟨hnodup.of_append_left, Nat.le_of_add_right_le hlength⟩

/-- A legal table takes one more entry exactly where pass 1 does not abort (R87). -/
theorem SymbolTable.Legal.concat_iff {table : SymbolTable} (h : SymbolTable.Legal table) (name : List Char)
    (address : Nat) :
    SymbolTable.Legal (table ++ [(name, address)]) ↔
      ¬(lookupSymbol name table).isSome ∧ ¬Config.symtabCapacity ≤ table.length := by
  obtain ⟨hnodup, -⟩ := h
  rw [lookupSymbol_isSome, Nat.not_le, SymbolTable.Legal, List.map_append, List.length_append]
  simp only [List.map_cons, List.map_nil, ← List.concat_eq_append, List.nodup_concat]
  simp [hnodup]

theorem SymbolTable.Legal.entry_fits {table more : SymbolTable} {name : List Char} {address : Nat}
    (h : SymbolTable.Legal (table ++ (name, address) :: more)) :
    ¬(lookupSymbol name table).isSome ∧ ¬Config.symtabCapacity ≤ table.length := by
  have hconcat : SymbolTable.Legal (table ++ [(name, address)]) := by
    rw [List.append_cons] at h
    exact h.append_left
  exact (h.append_left.concat_iff name address).1 hconcat

/-- Pass 1 from a legal table on: it succeeds exactly if the table stays legal with the lines' labels appended, and
answers that table. -/
theorem passOne_eq_ok_iff {lines : List (List Char)} {address : Nat} {table result : SymbolTable}
    (h : SymbolTable.Legal table) :
    passOne lines address table = .ok result ↔
      result = table ++ labelBindings lines address ∧ SymbolTable.Legal (table ++ labelBindings lines address) := by
  fun_induction passOne lines address table with
  | case1 => simp [labelBindings, h, eq_comm]
  | case2 line lines address table hlabel ih => rw [labelBindings_cons_of_none lines address hlabel, ih h]
  | case3 line lines address table name hlabel hdup =>
    rw [labelBindings_cons_of_some lines address hlabel]
    exact iff_of_false nofun fun ⟨_, hlegal⟩ => hlegal.entry_fits.1 hdup
  | case4 line lines address table name hlabel _ hfull =>
    rw [labelBindings_cons_of_some lines address hlabel]
    exact iff_of_false nofun fun ⟨_, hlegal⟩ => hlegal.entry_fits.2 hfull
  | case5 line lines address table name hlabel hnew hroom ih =>
    have hconcat : SymbolTable.Legal (table ++ [(name, address)]) := (h.concat_iff name address).2 ⟨hnew, hroom⟩
    rw [labelBindings_cons_of_some lines address hlabel, ih hconcat, ← List.append_cons]

/-- Both ways pass 1 aborts are SymbolErrors (R87). -/
theorem passOne_error_kind {lines : List (List Char)} {address : Nat} {table : SymbolTable} {e : AsmError}
    (h : passOne lines address table = .error e) : asmErrorKind e = .symbolError := by
  fun_induction passOne lines address table with
  | case1 => cases h
  | case2 _ _ _ _ _ ih => exact ih h
  | case3 | case4 => cases h; rfl
  | case5 _ _ _ _ _ _ _ _ ih => exact ih h

/-- Settles O57, from pass 1 on the empty table. -/
theorem symbolTableIsUniqueAndBounded : Obligations.SymbolTableIsUniqueAndBounded := fun _ =>
  have hempty : SymbolTable.Legal [] := ⟨List.nodup_nil, Nat.zero_le _⟩
  ⟨(passOne_eq_ok_iff hempty).trans (and_iff_right rfl), fun _ h => ((passOne_eq_ok_iff hempty).1 h).1,
    fun _ h => passOne_error_kind h⟩

end Sys2Proof.Machine
end

section
/-! PROOFS. The statements on 40_execution_cycle.md: the fetch outside memory (R101, R203), the skip at address 0 (R102),
the effective address (R104) and the advance of `pc` (R108). -/

namespace Sys2Proof.Machine

open Sys2Proof.Claims

/-! ## The effective address (R104) -/

/-- `withOperand` reads its operand only to form the effective address. -/
theorem withOperand_congr {m n : Nat} {s : State} (h : effectiveAddress s m = effectiveAddress s n)
    (go : Word → Result) : withOperand m s go = withOperand n s go := by
  rw [withOperand, withOperand, h]

theorem accumulate_congr {m n : Nat} {s : State} (h : effectiveAddress s m = effectiveAddress s n)
    (f : Word → Word → Word) : accumulate f m s = accumulate f n s := withOperand_congr h _

/-- A memory-operand instruction uses its operand for the effective address alone. -/
theorem exec_memoryInstr_congr {op : Nat → Instr} (hop : op ∈ memoryInstrs) {m n : Nat} {s : State}
    (h : effectiveAddress s m = effectiveAddress s n) : exec (op m) s = exec (op n) s := by
  have hacc (f : Word → Word → Word) : accumulate f m s = accumulate f n s := accumulate_congr h f
  have hsto : execSto m s = execSto n s := by rw [execSto, execSto, h]
  have hcmp : execCmp m s = execCmp n s := withOperand_congr h _
  have hdiv : execDiv m s = execDiv n s := withOperand_congr h _
  fin_cases hop
  exacts [hacc fun _ w => negWord w, hsto, hacc _, hacc _, hcmp, hacc _, hacc _, hdiv, hacc _, hacc _, hacc _, hacc _,
    hacc _]

theorem effectiveAddress_add_mul_words (s : State) (n k : Nat) :
    effectiveAddress s (n + k * s.memSize.words) = effectiveAddress s n := by
  rw [effectiveAddress_eq, effectiveAddress_eq, Nat.add_mul_mod_self_right]

/-- Settles O38: a multiple of MEM_SIZE does not change the effective address, and the operand has no other use. -/
theorem operandAddressesWrap : Obligations.OperandAddressesWrap :=
  ⟨fun s n => ⟨effectiveAddress_eq s n, effectiveAddress_lt s n⟩,
    fun _ hop n k s => exec_memoryInstr_congr hop (effectiveAddress_add_mul_words s n k)⟩

/-! ## The advance of `pc` (R108) -/

/-- A sum that fits the 32-bit register is the exact sum (R25). -/
theorem toNat_add_ofNat_of_lt {a : Word} {n : Nat} (h : a.toNat + n < 2 ^ 32) :
    (a + BitVec.ofNat 32 n).toNat = a.toNat + n := by
  rw [BitVec.toNat_add, BitVec.toNat_ofNat, Nat.add_mod_mod, Nat.mod_eq_of_lt h]

/-- Settles O31, from what an executed instruction leaves in `pc`: the increment, the target or the displaced address. -/
theorem pcAdvancesUnlessWritten : Obligations.PcAdvancesUnlessWritten := by
  intro i s t h
  have he : Executed i s t := exec_inv h
  refine ⟨fun hjmp hjrp hfits => ?increment, fun n hi hn => ?jmp, fun n hi hfits => ?jrp⟩
  case increment =>
    rw [he.pcOther hjmp hjrp]
    exact toNat_add_ofNat_of_lt hfits
  case jmp =>
    rw [he.pcJmp n hi, BitVec.toNat_ofNat]
    exact Nat.mod_eq_of_lt (by omega)
  case jrp =>
    rw [he.pcJrp n hi]
    exact toNat_add_ofNat_of_lt hfits

/-! ## The fetch outside memory (R101, R203) -/

theorem step_of_out_of_range {s : State} (hr : s.ctrl = .running) (hpc : s.memSize.words ≤ s.pc.toNat) :
    step s = .next ((s.setCtrl .faulted).setRet
      { ran := false, stillRunning := false, event := .fetchFault s.pc }) :=
  cycle_of_out_of_range hr hpc

theorem afterSteps_succ {s t : State} (h : step s = .next t) (k : Nat) : afterSteps (k + 1) s = afterSteps k t := by
  rw [afterSteps, h]

/-- On a stopped core every further step repeats the first (R37): it only overwrites the return with the same value. -/
theorem afterSteps_of_stopped {s : State} (hs : s.ctrl ≠ .running) (k : Nat) : afterSteps (k + 1) s = step s := by
  have hstep := step_of_stopped hs
  rw [afterSteps_succ hstep]
  induction k with
  | zero => exact hstep.symm
  | succ k ih => exact (afterSteps_succ (step_of_stopped (s := s.setRet _) hs) k).trans ih

/-- Settles O28: the fault is one of the step's cases, and it leaves the core stopped. -/
theorem fetchOutsideMemoryFaults : Obligations.FetchOutsideMemoryFaults := by
  refine fun s hr hpc => ⟨step_of_out_of_range hr hpc, fun t h k => ?_⟩
  have hstop : t.ctrl ≠ .running := by simp [(step_ctrl_eq_faulted_iff hr h).2 hpc]
  exact (afterSteps_of_stopped hstop k).trans (step_of_stopped hstop)

/-! ## The skip at address 0 (R102) -/

theorem State.report_of_running {s : State} (hr : s.ctrl = .running) (ev : Event) :
    s.report ev = s.setRet { ran := true, stillRunning := true, event := ev } := by
  rw [State.report, s.running_iff.2 hr]

/-- The skip with its return written out: a RUNNING core goes on running. -/
theorem step_of_pc_zero {s : State} (hr : s.ctrl = .running) (hpc : s.pc = 0) :
    step s = .next (((s.setIr (Memory.read s.mem 0)).setPc 1).setRet
      { ran := true, stillRunning := true, event := .skip }) := by
  rw [step_of_skip hr hpc, State.report_of_running (by simpa using hr)]

/-- The step that executes a JMP (R120). -/
theorem step_of_jmp {s : State} {n : Nat} (h : Executes s (.jmp n)) :
    step s = .next (((s.setIr (Memory.read s.mem s.pc.toNat)).setPc (BitVec.ofNat 32 n)).setRet
      { ran := true, stillRunning := true, event := .none }) := by
  obtain ⟨hr, hpc, hlt, hdecode⟩ := h
  rw [step_of_executes hr hpc hlt, hdecode, ← State.report_of_running (by simpa using hr)]
  rfl

/-- Settles O29: `JMP 0` leaves a RUNNING core at address 0, where the skip applies again. -/
theorem addressZeroIsSkipped : Obligations.AddressZeroIsSkipped := by
  refine ⟨fun s hr hpc => step_of_pc_zero hr hpc, fun s h => ⟨_, step_of_jmp h, rfl, ?_⟩⟩
  obtain ⟨hr, -, -, -⟩ := h
  exact step_of_pc_zero (by simpa using hr) (by simp)

end Sys2Proof.Machine
end

section
/-! PROOFS. The encoding an operation rule gives (R76, R80), for any code, and the statements on 41_control_transfer.md:
JMP (R120) and JRP (R121). -/

namespace Sys2Proof

open Sys2Proof.Claims

/-! ## The encoding of an operation (R76) -/

theorem rev4_inj {c d : Nat} (hc : c < 16) (hd : d < 16) : rev4 c = rev4 d ↔ c = d :=
  ⟨fun h => by rw [← rev4_rev4 c hc, h, rev4_rev4 d hd], congrArg rev4⟩

/-- The opcode bits of a word are a code's match exactly if the word's code field is that code. -/
theorem and_opcodeMask_eq_iff {w bits : Word} {code : Nat} (hcode : code < 16)
    (hbits : bits.toNat = rev4 code * 2 ^ 13) : w &&& 0x1E000#32 = bits ↔ codeField w = code := by
  rw [← BitVec.toNat_inj, toNat_and_opcodeMask, ← rev4_codeField, hbits,
    Nat.mul_left_inj (by decide), rev4_inj (codeField_lt w) hcode]

theorem decode_eq_iff (w : Word) (i : Instr) :
    decode w = i ↔ codeField w = i.code ∧ operandField w = i.operand := by
  rw [← decode_code, ← decode_operand]
  exact ⟨fun h => h ▸ ⟨rfl, rfl⟩, fun ⟨hcode, hoperand⟩ => Instr.eq_of_code_operand hcode hoperand⟩

/-- An operation with a code and an operand has the encoding whose match is the reversed code above the operand field. -/
theorem hasEncoding_of_match {op : Nat → Instr} {code : Nat} {bits : Word} (hcode : ∀ n, (op n).code = code)
    (hoperand : ∀ n, (op n).operand = n) (hbits : bits.toNat = rev4 code * 2 ^ 13) : HasEncoding op code bits := by
  refine ⟨hcode, fun w => ?_⟩
  have hlt : code < 16 := hcode 0 ▸ (op 0).code_lt
  rw [and_opcodeMask_eq_iff hlt hbits, decode_eq_iff, hcode, hoperand, operandField_eq]
  exact (and_iff_left rfl).symm

end Sys2Proof

namespace Sys2Proof.Machine

open Sys2Proof.Claims

/-! ## JMP and JRP (R120, R121) -/

theorem exec_jmp (n : Nat) (s : State) :
    exec (.jmp n) s = .next { s with pc := BitVec.ofNat 32 n, ret := returned s.ctrl .none } := rfl

/-- The target of JRP, as the register holds it, is the number `pc + n`. -/
theorem exec_jrp (n : Nat) (s : State) :
    exec (.jrp n) s = .next { s with pc := BitVec.ofNat 32 (s.pc.toNat + n), ret := returned s.ctrl .none } := by
  rw [BitVec.ofNat_add, BitVec.ofNat_toNat, BitVec.setWidth_eq]
  rfl

/-- An instruction that leaves a RUNNING core with `pc` outside memory is followed by the fetch fault (R101). -/
theorem exec_then_step_faults {i : Instr} {s t : State} (h : exec i s = .next t) (hr : t.ctrl = .running)
    (hpc : t.memSize.words ≤ t.pc.toNat) :
    ∃ t u, exec i s = .next t ∧ step t = .next u ∧ u.ctrl = .faulted :=
  ⟨t, _, h, step_of_out_of_range hr hpc, rfl⟩

/-- Settles O6: the 13-bit operand fits `pc` as it is, so a target outside memory is where the next fetch faults. -/
theorem jmpSetsPcToOperand : Obligations.JmpSetsPcToOperand := by
  refine ⟨hasEncoding_of_match (fun _ => rfl) (fun _ => rfl) (by decide), fun n s hn => ?_⟩
  have htarget : (BitVec.ofNat 32 n).toNat = n := Nat.mod_eq_of_lt (by omega)
  exact ⟨exec_jmp n s, htarget, fun hr hout => exec_then_step_faults (exec_jmp n s) hr (hout.trans_eq htarget.symm)⟩

/-- Settles O7: the sum is exact where it fits the register, and where a JRP executes it is at most 63 + 8191. -/
theorem jrpAddsOperandToPc : Obligations.JrpAddsOperandToPc := by
  refine ⟨hasEncoding_of_match (fun _ => rfl) (fun _ => rfl) (by decide), fun n s hn hfits => ?_⟩
  have htarget : (BitVec.ofNat 32 (s.pc.toNat + n)).toNat = s.pc.toNat + n := Nat.mod_eq_of_lt hfits
  have hbound (hlt : s.pc.toNat < s.memSize.words) : s.pc.toNat + n ≤ 8254 := by
    have hwords : s.memSize.words ≤ 64 := s.memSize.words_le
    omega
  exact ⟨exec_jrp n s, htarget, hbound,
    fun hr hout => exec_then_step_faults (exec_jrp n s) hr (hout.trans_eq htarget.symm)⟩

end Sys2Proof.Machine
end

section
/-! PROOFS. The statements on 42_load_store.md: LDN (R130) and STO (R131), and the next state of an accumulator operation
written out. -/

namespace Sys2Proof.Machine

open Sys2Proof.Claims

/-- The state after an accumulator operation, field by field: `acc`, `pc` and the return change. -/
theorem accumulate_next (f : Word → Word → Word) (n : Nat) (s : State) :
    accumulate f n s = .next { s with
      acc := f s.acc (operandWord s n), pc := s.pc + 1, ret := returned s.ctrl .none } :=
  accumulate_eq f n s

/-- The state after a store, field by field: one word of memory, `pc` and the return change. -/
theorem exec_sto (n : Nat) (s : State) :
    exec (.sto n) s = .next { s with
      mem := Memory.write s.mem (n % s.memSize.words) s.acc, pc := s.pc + 1, ret := returned s.ctrl .none } :=
  execSto_eq n s

/-- Settles O8: LDN is the accumulator operation that reads no accumulator and negates the operand word. -/
theorem ldnLoadsTheNegation : Obligations.LdnLoadsTheNegation :=
  ⟨hasEncoding_of_match (fun _ => rfl) (fun _ => rfl) (by decide),
    fun n s => accumulate_next (fun _ m => negWord m) n s⟩

/-- Settles O9: what the stored memory reads as is read-after-write, for which the canonical form is needed. -/
theorem stoWritesTheAccumulator : Obligations.StoWritesTheAccumulator := by
  refine ⟨hasEncoding_of_match (fun _ => rfl) (fun _ => rfl) (by decide), fun n s hwf => ⟨_, exec_sto n s, rfl, ?_⟩⟩
  exact fun a => Memory.read_write (Memory.rising_of_wf hwf) (n % s.memSize.words) a s.acc

end Sys2Proof.Machine
end

section
/-! PROOFS. The statements on 43_arithmetic.md: SUB, SUB2, CMP, ADD, MUL and DIV (R140 to R145, R200), and how DIV rounds
(R147). -/

namespace Sys2Proof.Machine

open Sys2Proof.Claims

/-! ## SUB, SUB2, ADD and MUL (R140, R141, R143, R144) -/

/-- Settles O10: SUB is the accumulator operation of the exact difference. -/
theorem subSubtractsTheOperand : Obligations.SubSubtractsTheOperand :=
  ⟨hasEncoding_of_match (fun _ => rfl) (fun _ => rfl) (by decide), fun n s => accumulate_next subWord n s⟩

/-- Settles O11: SUB2 has SUB's meaning under its own code. -/
theorem sub2IsSubExactly : Obligations.Sub2IsSubExactly :=
  ⟨hasEncoding_of_match (fun _ => rfl) (fun _ => rfl) (by decide), fun n s => ⟨rfl, accumulate_next subWord n s⟩⟩

/-- Settles O14: ADD is the accumulator operation of the exact sum. -/
theorem addAddsTheOperand : Obligations.AddAddsTheOperand :=
  ⟨hasEncoding_of_match (fun _ => rfl) (fun _ => rfl) (by decide), fun n s => accumulate_next addWord n s⟩

/-- Settles O15: MUL is the accumulator operation of the exact product. -/
theorem mulKeepsTheLowProduct : Obligations.MulKeepsTheLowProduct :=
  ⟨hasEncoding_of_match (fun _ => rfl) (fun _ => rfl) (by decide), fun n s => accumulate_next mulWord n s⟩

/-! ## CMP (R142) -/

/-- Settles O12: CMP changes `pc` and the return, whatever the values it compares. -/
theorem cmpOnlyReports : Obligations.CmpOnlyReports :=
  ⟨hasEncoding_of_match (fun _ => rfl) (fun _ => rfl) (by decide), fun n s => execCmp_eq n s⟩

/-! ## DIV (R145, R200) -/

/-- The state after a division by zero, field by field: `pc` and the return change. -/
theorem exec_div_of_zero {n : Nat} {s : State} (hm : (operandWord s n).toInt = 0) :
    exec (.div n) s = .next { s with pc := s.pc + 1, ret := returned s.ctrl (.divZero s.pc) } :=
  (execDiv_eq n s).trans (if_pos hm)

/-- The state after any other division, field by field: `acc`, `pc` and the return change. -/
theorem exec_div_of_ne_zero {n : Nat} {s : State} (hm : (operandWord s n).toInt ≠ 0) :
    exec (.div n) s = .next { s with
      acc := divWord s.acc (operandWord s n), pc := s.pc + 1, ret := returned s.ctrl .none } :=
  (execDiv_eq n s).trans (if_neg hm)

/-- Settles O16, by whether the divisor is zero. -/
theorem divDividesOrReportsZero : Obligations.DivDividesOrReportsZero :=
  ⟨hasEncoding_of_match (fun _ => rfl) (fun _ => rfl) (by decide), fun _ _ => exec_div_of_zero,
    fun _ _ => exec_div_of_ne_zero⟩

/-! ## How DIV rounds (R147) -/

theorem abs_tdiv_mul_abs_le (a m : Int) : |a.tdiv m| * |m| ≤ |a| := by
  simp only [Int.abs_eq_natAbs, Int.natAbs_tdiv]
  exact_mod_cast Nat.div_mul_le_self a.natAbs m.natAbs

theorem abs_lt_abs_tdiv_add_one_mul_abs (a : Int) {m : Int} (hm : m ≠ 0) : |a| < (|a.tdiv m| + 1) * |m| := by
  simp only [Int.abs_eq_natAbs, Int.natAbs_tdiv]
  exact_mod_cast Nat.lt_mul_of_div_lt (Nat.lt_succ_self _) (Int.natAbs_pos.2 hm)

theorem sign_tdiv_of_ne_zero {a m : Int} (hq : a.tdiv m ≠ 0) : (a.tdiv m).sign = a.sign * m.sign := by
  have hsign := Int.sign_tdiv a m
  split at hsign
  · exact absurd (Int.sign_eq_zero_iff_zero.1 hsign) hq
  · exact hsign

theorem divGives_of_ne_zero {a m q : Int} (hm : (BitVec.ofInt 32 m).toInt ≠ 0)
    (hq : divWord (BitVec.ofInt 32 a) (BitVec.ofInt 32 m) = BitVec.ofInt 32 q) : DivGives a m q := by
  intro n s hacc hoperand
  refine ⟨_, exec_div_of_ne_zero (hoperand ▸ hm), ?_⟩
  rw [hacc, hoperand, hq]

theorem divGives_zero (a : Int) : DivGives a 0 a := fun _ _ hacc hoperand =>
  ⟨_, exec_div_of_zero (hoperand ▸ rfl), hacc⟩

/-- Settles O23: the quotient is the truncated one, before the reduction to 32 bits. -/
theorem divRoundsTowardZero : Obligations.DivRoundsTowardZero := by
  refine ⟨fun n s hm => ⟨_, s.acc.toInt.tdiv (operandWord s n).toInt, exec_div_of_ne_zero hm, rfl,
    abs_tdiv_mul_abs_le _ _, abs_lt_abs_tdiv_add_one_mul_abs _ hm, sign_tdiv_of_ne_zero⟩,
    ?_, ?_, ?_, ?_, ?_, ?_, ?_, ?_, divGives_zero⟩
  all_goals exact divGives_of_ne_zero (by decide) (by decide)

end Sys2Proof.Machine
end

section
/-! PROOFS. The statement on 44_halt.md: STP (R160), and how a stopped core answers any number of further steps. -/

namespace Sys2Proof.Machine

open Sys2Proof.Claims

/-- The state after STP, field by field: `ctrl`, `pc` and the return change. -/
theorem exec_stp (n : Nat) (s : State) :
    exec (.stp n) s = .next { s with
      ctrl := .halted, pc := s.pc + 1, ret := returned .halted (.halt s.pc) } := rfl

/-- Further steps of a stopped core change nothing but the latched return (R37). -/
theorem afterSteps_next_of_stopped {s : State} (hs : s.ctrl ≠ .running) (k : Nat) :
    afterSteps (k + 1) s =
      .next { s with ret := some { ran := false, stillRunning := false, event := .none } } :=
  (afterSteps_of_stopped hs k).trans (step_of_stopped hs)

/-- Settles O13: STP leaves the core HALTED whatever its operand, and a stopped core stays as it is. -/
theorem stpHalts : Obligations.StpHalts := by
  refine ⟨hasEncoding_of_match (fun _ => rfl) (fun _ => rfl) (by decide), fun n s => ⟨exec_stp n s, fun t h => ?_⟩⟩
  have hhalted : t.ctrl = .halted := (exec_inv h).ctrlStp n rfl
  have hstop : t.ctrl ≠ .running := by simp [hhalted]
  exact afterSteps_next_of_stopped hstop

end Sys2Proof.Machine
end

section
/-! PROOFS. The statements on 45_logic_shift.md: AND, OR and XOR bit by bit (R170 to R172), SHL and SHR as exact values
and bit by bit (R173, R174). -/

namespace Sys2Proof.Machine

open Sys2Proof.Claims

/-! ## AND, OR and XOR (R170, R171, R172) -/

/-- Settles O17: AND is the accumulator operation of the bitwise and. -/
theorem andCombinesEachBit : Obligations.AndCombinesEachBit :=
  ⟨hasEncoding_of_match (fun _ => rfl) (fun _ => rfl) (by decide),
    fun n s => ⟨_, accumulate_next (· &&& ·) n s, rfl, fun _ _ => BitVec.getLsbD_and⟩⟩

/-- Settles O18: OR is the accumulator operation of the bitwise or. -/
theorem orCombinesEachBit : Obligations.OrCombinesEachBit :=
  ⟨hasEncoding_of_match (fun _ => rfl) (fun _ => rfl) (by decide),
    fun n s => ⟨_, accumulate_next (· ||| ·) n s, rfl, fun _ _ => BitVec.getLsbD_or⟩⟩

/-- Settles O19: XOR is the accumulator operation of the bitwise exclusive or. -/
theorem xorCombinesEachBit : Obligations.XorCombinesEachBit :=
  ⟨hasEncoding_of_match (fun _ => rfl) (fun _ => rfl) (by decide),
    fun n s => ⟨_, accumulate_next (· ^^^ ·) n s, rfl, fun _ _ => BitVec.getLsbD_xor⟩⟩

/-! ## SHL (R173) -/

/-- R173's value, with its count as the operand word's low five bits. -/
theorem shlWord_eq_ofInt (a w : Word) :
    shlWord a w = BitVec.ofInt 32 ((a.toNat : Int) * 2 ^ (w.toNat % 32)) := by
  rw [shlWord, u32, shiftCount_eq]

/-- Zeros enter at bit 0, and every other bit comes from `k` places below. -/
theorem getLsbD_shlWord (a w : Word) {i : Nat} (hi : i < 32) :
    (shlWord a w).getLsbD i = (decide (w.toNat % 32 ≤ i) && a.getLsbD (i - w.toNat % 32)) := by
  rw [shlWord_eq, BitVec.getLsbD_shiftLeft]
  simp only [hi, decide_true, Bool.true_and, ← decide_not, Nat.not_lt]

/-- Settles O20: SHL is the accumulator operation of the exact product by 2^k, which moves each bit up by `k`. -/
theorem shlShiftsLeft : Obligations.ShlShiftsLeft := by
  refine ⟨hasEncoding_of_match (fun _ => rfl) (fun _ => rfl) (by decide), fun n s =>
    ⟨_, accumulate_next shlWord n s, ?_, fun _ hi => getLsbD_shlWord _ _ hi⟩⟩
  rw [shlWord_eq_ofInt]

/-! ## SHR (R174) -/

/-- R174's value: the model's floor division is the floor of the rational quotient. -/
theorem shrWord_eq_ofInt_floor (a w : Word) :
    shrWord a w = BitVec.ofInt 32 ⌊(a.toInt : ℚ) / 2 ^ (w.toNat % 32)⌋ := by
  have hfloor : ⌊(a.toInt : ℚ) / 2 ^ (w.toNat % 32)⌋ = a.toInt / 2 ^ (w.toNat % 32) := by
    exact_mod_cast Rat.floor_intCast_div_natCast a.toInt (2 ^ (w.toNat % 32))
  rw [shrWord, u32, s32, shiftCount_eq, Int.fdiv_eq_ediv_of_nonneg _ (by positivity), hfloor]

/-- Every bit comes from `k` places above, and copies of bit 31 enter from the top. -/
theorem getLsbD_shrWord (a w : Word) {i : Nat} (hi : i < 32) :
    (shrWord a w).getLsbD i =
      if i + w.toNat % 32 < 32 then a.getLsbD (i + w.toNat % 32) else a.getLsbD 31 := by
  rw [shrWord_eq, BitVec.getLsbD_sshiftRight, BitVec.msb_eq_getLsbD_last, Nat.add_comm]
  simp [hi]

/-- Settles O21: SHR is the accumulator operation of the floor of A / 2^k, which moves each bit down by `k`. -/
theorem shrShiftsRightArithmetically : Obligations.ShrShiftsRightArithmetically := by
  refine ⟨hasEncoding_of_match (fun _ => rfl) (fun _ => rfl) (by decide), fun n s =>
    ⟨_, accumulate_next shrWord n s, ?_, fun _ hi => getLsbD_shrWord _ _ hi⟩⟩
  rw [shrWord_eq_ofInt_floor]

end Sys2Proof.Machine
end

section
/-! PROOFS. The statement on 60_exceptions.md: the event each instruction reports (R38), and the run-time errors that a
step can report (R200, R203, R204). -/

namespace Sys2Proof.Machine

open Sys2Proof.Claims

/-! ## The event of an instruction (R38) -/

/-- The event an instruction reports when it is executed in `s`: only CMP, STP and a DIV by zero report one. -/
def executionEvent (s : State) : Instr → Event
  | .cmp n => .cmp s.pc s.acc.toInt (operandWord s n).toInt
  | .stp _ => .halt s.pc
  | .div n => if operandWord s n = 0 then .divZero s.pc else .none
  | _ => .none

theorem accumulate_ret {f : Word → Word → Word} {n : Nat} {s t : State} (h : accumulate f n s = .next t) :
    t.ret = returned t.ctrl .none := by
  cases (accumulate_next f n s).symm.trans h
  rfl

theorem exec_ret {i : Instr} {s t : State} (h : exec i s = .next t) :
    t.ret = returned t.ctrl (executionEvent s i) := by
  cases i with
  | jmp n | jrp n | stp n => cases h; rfl
  | ldn n => exact accumulate_ret (f := fun _ m => negWord m) h
  | sub n | sub2 n | add n | mul n | and n | or n | xor n | shl n | shr n => exact accumulate_ret h
  | sto n =>
    cases (exec_sto n s).symm.trans h
    rfl
  | cmp n =>
    cases (execCmp_eq n s).symm.trans h
    rfl
  | div n =>
    by_cases hz : operandWord s n = 0
    · cases (exec_div_of_zero ((s32_eq_zero _).2 hz)).symm.trans h
      simp only [executionEvent, if_pos hz]
    · cases (exec_div_of_ne_zero (mt (s32_eq_zero _).1 hz)).symm.trans h
      simp only [executionEvent, if_neg hz]

/-! ## The errors of a step (R200, R203, R204) -/

/-- The one error an instruction reports is DIV's, by a zero operand word (R200). -/
theorem errorOfEvent_executionEvent_iff (s : State) (i : Instr) (k : ErrorKind) :
    errorOfEvent (executionEvent s i) = some k ↔ k = .divZero ∧ ∃ n, i = .div n ∧ operandWord s n = 0 := by
  cases i with
  | div n =>
    by_cases hz : operandWord s n = 0#32
    · simp [executionEvent, errorOfEvent, hz, eq_comm]
    · simp [executionEvent, errorOfEvent, hz]
  | _ => simp [executionEvent, errorOfEvent]

/-- Where each kind of error is due at a step: FETCH_RANGE by R203, DIV_ZERO by R200, FORMAT_ERROR nowhere. -/
def StepErrorDue (s : State) : ErrorKind → Prop
  | .fetchRange => s.ctrl = .running ∧ s.memSize.words ≤ s.pc.toNat
  | .divZero => ∃ n, Executes s (.div n) ∧ operandWord s n = 0
  | .formatError => False

theorem not_stepErrorDue_of_stopped {s : State} (hs : s.ctrl ≠ .running) (k : ErrorKind) : ¬ StepErrorDue s k := by
  cases k <;> simp [StepErrorDue, Executes, hs]

theorem not_stepErrorDue_of_pc_zero {s : State} (hpc : s.pc = 0) (k : ErrorKind) : ¬ StepErrorDue s k := by
  cases k <;> simp [StepErrorDue, Executes, hpc, s.memSize.words_pos.ne']

theorem stepErrorDue_iff_of_out_of_range {s : State} (hr : s.ctrl = .running) (hpc : s.memSize.words ≤ s.pc.toNat)
    (k : ErrorKind) : StepErrorDue s k ↔ k = .fetchRange := by
  cases k <;> simp [StepErrorDue, Executes, hr, hpc, Nat.not_lt.2 hpc]

/-- A state executes at most one instruction. -/
theorem executes_iff_eq {s : State} {i : Instr} (h : Executes s i) (j : Instr) : Executes s j ↔ i = j := by
  obtain ⟨hr, hpc, hlt, hdecode⟩ := h
  exact ⟨fun ⟨_, _, _, hj⟩ => hdecode.symm.trans hj, fun hij => ⟨hr, hpc, hlt, hdecode.trans hij⟩⟩

theorem stepErrorDue_iff_of_executes {s : State} {i : Instr} (h : Executes s i) (k : ErrorKind) :
    StepErrorDue s k ↔ k = .divZero ∧ ∃ n, i = .div n ∧ operandWord s n = 0 := by
  have ⟨_, _, hlt, _⟩ := h
  cases k <;> simp [StepErrorDue, executes_iff_eq h, hlt]

/-- A step reports exactly the error that is due. -/
theorem step_error_iff {s t : State} (h : step s = .next t) :
    ∃ r, t.ret = some r ∧ ∀ k, errorOfEvent r.event = some k ↔ StepErrorDue s k := by
  cases step_inv h with
  | stopped hstop ht =>
    exact ⟨_, congrArg State.ret ht, fun k => iff_of_false nofun (not_stepErrorDue_of_stopped hstop k)⟩
  | skipped _ hpc ht =>
    exact ⟨_, congrArg State.ret ht, fun k => iff_of_false nofun (not_stepErrorDue_of_pc_zero hpc k)⟩
  | fetchRange hr hpc ht =>
    refine ⟨_, congrArg State.ret ht, fun k => ?_⟩
    rw [stepErrorDue_iff_of_out_of_range hr hpc]
    simp [errorOfEvent, eq_comm]
  | executed hr hpc hlt hex _ =>
    refine ⟨_, exec_ret hex, fun k => ?_⟩
    rw [stepErrorDue_iff_of_executes ⟨hr, hpc, hlt, rfl⟩]
    exact errorOfEvent_executionEvent_iff _ _ k

/-- Settles O35: every step answers a next state, and the error it reports is the one that is due. -/
theorem noOtherErrorExists : Obligations.NoOtherErrorExists := by
  intro s
  obtain ⟨t, ht, -⟩ := step_cases s
  obtain ⟨r, hret, herror⟩ := step_error_iff ht
  exact ⟨t, r, ht, hret, herror .fetchRange, herror .divZero, (herror .formatError).1⟩

end Sys2Proof.Machine
end

section
/-! PROOFS. The statements on the fresh state (R230) and on `load`: the lines of a file, the words they parse to, and what
stands in memory after them (R234, R235). -/

namespace Sys2Proof.Machine

open Sys2Proof.Claims

/-! ## The fresh state (R230) -/

/-- Settles O47: the fields of `State.create`, read off; the empty list of memory words reads as 0 everywhere. -/
theorem freshStateValues : Obligations.FreshStateValues := fun _ _ =>
  ⟨Memory.read_nil, rfl, rfl, rfl, rfl, rfl, rfl, List.length_replicate, fun _ => List.eq_of_mem_replicate, rfl⟩

/-! ## The lines of a file -/

/-- The last line of a file may lack its newline (R235), if it has a character. -/
theorem splitLines_of_no_newline {line : List Char} (hne : line ≠ []) (h : '\n' ∉ line) : splitLines line = [line] := by
  induction line with
  | nil => exact absurd rfl hne
  | cons c line ih =>
    obtain ⟨hc, hline⟩ := not_or.1 (mt List.mem_cons.2 h)
    cases line with
    | nil => simp [splitLines, Ne.symm hc]
    | cons d line => rw [splitLines, if_neg (Ne.symm hc), ih (List.cons_ne_nil d line) hline]

theorem splitLines_joinLines {ls : List (List Char)} (h : ∀ l ∈ ls, '\n' ∉ l) : splitLines (joinLines ls) = ls := by
  induction ls with
  | nil => rfl
  | cons l ls ih =>
    obtain ⟨hl, hls⟩ := List.forall_mem_cons.1 h
    rw [joinLines, splitLines_line _ _ hl, ih hls]

theorem splitLines_dropLast_joinLines {ls : List (List Char)} (h : ∀ l ∈ ls, '\n' ∉ l) (hlast : ls.getLast? ≠ some []) :
    splitLines (joinLines ls).dropLast = ls := by
  induction ls with
  | nil => rfl
  | cons l ls ih =>
    obtain ⟨hl, hls⟩ := List.forall_mem_cons.1 h
    cases ls with
    | nil =>
      have hne : l ≠ [] := by simpa using hlast
      rw [joinLines, joinLines, List.dropLast_concat, splitLines_of_no_newline hne hl]
    | cons l' ls =>
      have hne : joinLines (l' :: ls) ≠ [] := List.append_ne_nil_of_right_ne_nil l' (List.cons_ne_nil _ _)
      rw [joinLines, List.dropLast_append_of_ne_nil (List.cons_ne_nil _ _), List.dropLast_cons_of_ne_nil hne,
        splitLines_line _ _ hl, ih hls (by rwa [List.getLast?_cons_cons] at hlast)]

/-- A file splits into the lines it is made of, with or without its last newline. -/
theorem splitLines_of_joinLines {ls : List (List Char)} {file : List Char} (h : ∀ l ∈ ls, '\n' ∉ l)
    (hfile : file = joinLines ls ∨ ls.getLast? ≠ some [] ∧ file = (joinLines ls).dropLast) : splitLines file = ls := by
  obtain rfl | ⟨hlast, rfl⟩ := hfile
  · exact splitLines_joinLines h
  · exact splitLines_dropLast_joinLines h hlast

/-! ## The lines the loader accepts (R234) -/

theorem bitOfChar_isSome_iff (c : Char) : (bitOfChar c).isSome ↔ c = '0' ∨ c = '1' := by
  unfold bitOfChar
  split_ifs <;> simp_all

theorem charOfBit_of_bit {c : Char} (h : c = '0' ∨ c = '1') : charOfBit (decide (c = '1')) = c := by
  obtain rfl | rfl := h <;> rfl

/-- A text that has a value consists of bits. -/
theorem bit_of_bitsValue {l : List Char} (h : (bitsValue l).isSome) : ∀ c ∈ l, c = '0' ∨ c = '1' := by
  induction l with
  | nil => exact List.forall_mem_nil _
  | cons c l ih =>
    rw [bitsValue] at h
    split at h
    next hc hl =>
      exact List.forall_mem_cons.2 ⟨(bitOfChar_isSome_iff c).1 (Option.isSome_of_eq_some hc),
        ih (Option.isSome_of_eq_some hl)⟩
    next => cases h

theorem validLine_of_parseLine {l : List Char} (h : (parseLine l).isSome) : ValidLine l := by
  rw [parseLine] at h
  split at h
  next hlen => exact ⟨hlen, bit_of_bitsValue (by rwa [Option.isSome_map] at h)⟩
  next => cases h

theorem newline_not_mem_of_validLine {l : List Char} (h : ValidLine l) : '\n' ∉ l := fun hmem =>
  absurd (h.2 _ hmem) (by decide)

theorem ne_nil_of_validLine {l : List Char} (h : ValidLine l) : l ≠ [] :=
  List.ne_nil_of_length_pos (h.1 ▸ Nat.succ_pos 31)

/-! ## The word of a line -/

/-- The word whose bit j is set exactly where character j of the line is `1` (R11). -/
def lineWord (l : List Char) : Word := BitVec.ofFnLE fun j : Fin 32 => decide (l[(j : Nat)]? = some '1')

theorem getLsbD_lineWord {l : List Char} (h : l.length ≤ 32) (j : Nat) :
    (lineWord l).getLsbD j = decide (l[j]? = some '1') := by
  rw [lineWord, BitVec.getLsbD_ofFnLE]
  split
  next => rfl
  next hj => rw [List.getElem?_eq_none (by omega)]; rfl

theorem lineWord_nil : lineWord [] = 0 :=
  BitVec.eq_of_getLsbD_eq fun j _ => (getLsbD_lineWord (l := []) (Nat.zero_le 32) j).trans (by simp)

/-- A line the loader accepts is the text of its word. -/
theorem wordText_lineWord {l : List Char} (h : ValidLine l) : wordText (lineWord l) = l := by
  obtain ⟨hlen, hbits⟩ := h
  have hlength : (wordText (lineWord l)).length = l.length := (bitsText_length _ 0 32).trans hlen.symm
  refine List.ext_getElem hlength fun j hj hjl => Option.some_inj.1 ?_
  calc some (wordText (lineWord l))[j]
    _ = some (charOfBit ((lineWord l).getLsbD j)) := by
      rw [← List.getElem?_eq_getElem hj, getElem?_wordText _ (hlen ▸ hjl)]
    _ = some (charOfBit (decide (l[j] = '1'))) := by
      rw [getLsbD_lineWord hlen.le, List.getElem?_eq_getElem hjl]
      simp only [Option.some_inj]
    _ = some l[j] := by rw [charOfBit_of_bit (hbits _ (List.getElem_mem hjl))]

theorem parseLine_of_validLine {l : List Char} (h : ValidLine l) : parseLine l = some (lineWord l) := by
  rw [← parseLine_wordText (lineWord l), wordText_lineWord h]

/-! ## The words of a file -/

theorem parseLines_of_validLines {ls : List (List Char)} (h : ∀ l ∈ ls, ValidLine l) :
    parseLines ls = some (ls.map lineWord) := by
  induction ls with
  | nil => rfl
  | cons l ls ih =>
    obtain ⟨hl, hls⟩ := List.forall_mem_cons.1 h
    rw [parseLines, parseLine_of_validLine hl, ih hls]
    rfl

theorem validLines_of_parseLines {ls : List (List Char)} (h : (parseLines ls).isSome) : ∀ l ∈ ls, ValidLine l := by
  induction ls with
  | nil => exact List.forall_mem_nil _
  | cons l ls ih =>
    rw [parseLines] at h
    split at h
    next hl hls =>
      exact List.forall_mem_cons.2 ⟨validLine_of_parseLine (Option.isSome_of_eq_some hl),
        ih (Option.isSome_of_eq_some hls)⟩
    next => cases h

theorem parseFile_of_validLines {file : List Char} (size : Nat) (h : ∀ l ∈ splitLines file, ValidLine l) :
    parseFile size file =
      if (splitLines file).length ≤ size then some ((splitLines file).map lineWord) else none := by
  simp only [parseFile, parseLines_of_validLines h, List.length_map]

theorem parseFile_eq_none_iff (size : Nat) (file : List Char) :
    parseFile size file = none ↔ (∃ l ∈ splitLines file, ¬ ValidLine l) ∨ size < (splitLines file).length := by
  by_cases hvalid : ∀ l ∈ splitLines file, ValidLine l
  · have hnone : ¬ ∃ l ∈ splitLines file, ¬ ValidLine l := fun ⟨l, hl, hbad⟩ => hbad (hvalid l hl)
    simp [parseFile_of_validLines size hvalid, hnone]
  · have hparse : parseLines (splitLines file) = none :=
      Option.not_isSome_iff_eq_none.1 (mt validLines_of_parseLines hvalid)
    push Not at hvalid
    simp [parseFile, hparse, hvalid]

/-- Settles O50: on a fresh state the load fails exactly when `parseFile` does. -/
theorem loadChecksEveryLine : Obligations.LoadChecksEveryLine := by
  intro m k ls file hnewline hfile
  rw [load_eq_formatError_iff, parseFile_eq_none_iff, splitLines_of_joinLines hnewline hfile]
  exact and_iff_right (State.isFresh_create m k)

/-! ## Memory after a load (R235) -/

/-- Placed in an empty memory from address 0 on, line k's word stands at `mem[k]`, and the rest reads as an empty line. -/
theorem read_place_map_lineWord (ls : List (List Char)) (a : Nat) :
    Memory.read (Memory.place [] 0 (ls.map lineWord)) a = lineWord (ls.getD a []) := by
  rw [Memory.read_place rfl, if_pos a.zero_le, Nat.sub_zero, List.getElem?_map, Memory.read_nil, ← lineWord_nil,
    Option.getD_map, List.getD_eq_getElem?_getD]

/-- Settles O49: the lines parse to their words, and bit j of a line's word is character j. -/
theorem loadWritesEveryLine : Obligations.LoadWritesEveryLine := by
  intro m k ls file hvalid hlen hfile
  have hlast : ls.getLast? ≠ some [] := fun h => ne_nil_of_validLine (hvalid [] (List.mem_of_getLast? h)) rfl
  have hsplit : splitLines file = ls :=
    splitLines_of_joinLines (fun l hl => newline_not_mem_of_validLine (hvalid l hl)) (hfile.imp_right (And.intro hlast))
  have hparse : parseFile m.words file = some (ls.map lineWord) := by
    subst hsplit
    rw [parseFile_of_validLines _ hvalid, if_pos hlen]
  refine ⟨_, load_of_parse (State.isFresh_create m k) hparse, rfl, fun a j => ?_⟩
  have hline : (ls.getD a []).length ≤ 32 := by
    obtain hlt | hge := lt_or_ge a ls.length
    · rw [List.getD_eq_getElem _ _ hlt]
      exact (hvalid _ (List.getElem_mem hlt)).1.le
    · rw [List.getD_eq_default _ _ hge]
      exact Nat.zero_le 32
  calc (Memory.read (Memory.place [] 0 (ls.map lineWord)) a).getLsbD j
    _ = (lineWord (ls.getD a [])).getLsbD j := by rw [read_place_map_lineWord]
    _ = decide ((ls.getD a [])[j]? = some '1') := getLsbD_lineWord hline j

end Sys2Proof.Machine
end

section
/-! PROOFS. The statements on 30_encoding.md that remain: the round trip (R80), the bits the decoder does not read (R74),
the worked words (R84, R239) and the words of the toolchain (R81, R82). -/

namespace Sys2Proof

/-! ## Decoding and encoding (R74, R80) -/

/-- Settles O2: the word's two fields are the instruction's code and operand, and they determine it. -/
theorem decodeOfEncodeIsIdentity : Obligations.DecodeOfEncodeIsIdentity := by
  intro i hwf
  obtain ⟨hoperand, hcode⟩ := Laws.EncodedFields.of_code i hwf
  exact (decode_eq_iff _ _).2 ⟨hcode, hoperand⟩

/-- The mask clears bits 17 to 31. -/
theorem toNat_and_readMask (w : Word) : (w &&& 0x1FFFF#32).toNat = w.toNat % 2 ^ 17 := by
  rw [BitVec.toNat_and]
  exact Nat.and_two_pow_sub_one_eq_mod w.toNat 17

theorem operandField_and_readMask (w : Word) : operandField (w &&& 0x1FFFF#32) = operandField w := by
  rw [operandField_eq, operandField_eq, toNat_and_readMask]
  exact Nat.mod_mod_of_dvd _ (by decide)

theorem codeField_and_readMask (w : Word) : codeField (w &&& 0x1FFFF#32) = codeField w := by
  rw [← rev4_inj (codeField_lt _) (codeField_lt _), rev4_codeField, rev4_codeField, toNat_and_readMask]
  omega

theorem decode_and_readMask (w : Word) : decode (w &&& 0x1FFFF#32) = decode w := by
  rw [decode_eq_iff, decode_code, decode_operand]
  exact ⟨codeField_and_readMask w, operandField_and_readMask w⟩

/-- The encoder puts the operand and the reversed code back where the decoder read them. -/
theorem encode_decode (w : Word) : encode (decode w) = w &&& 0x1FFFF#32 := by
  apply BitVec.eq_of_toNat_eq
  rw [encode, decode_operand, decode_code, rev4_codeField, operandField_eq, BitVec.toNat_ofNat, toNat_and_readMask]
  omega

/-- Settles O3: both fields lie in the low 17 bits, and together they are those bits. -/
theorem encodeOfDecodeClearsIgnoredBits : Obligations.EncodeOfDecodeClearsIgnoredBits := fun w =>
  ⟨(decode_and_readMask w).symm, encode_decode w,
    (Instr.wf_iff _).2 (decode_operand w ▸ operandField_lt w)⟩

/-- Settles O5: the decoder evaluated on the ten words. -/
theorem workedWordsDecode : Obligations.WorkedWordsDecode := by
  refine ⟨?_, ?_, ?_, ?_, ?_, ?_, ?_, ?_, ?_, ?_⟩
  all_goals decide

end Sys2Proof

namespace Sys2Proof.Machine

/-! ## The toolchain's words (R81, R82) -/

theorem decode_stpPattern : decode stpPattern = .stp 0 := decodeOfEncodeIsIdentity (.stp 0) rfl

/-- A number in VAR's range is its word read as a signed number (R82). -/
theorem toInt_varWord {v : Int} (hlow : -(2 ^ 31) ≤ v) (hhigh : v ≤ 2 ^ 31 - 1) : (varWord v).toInt = v :=
  BitVec.toInt_ofInt_eq_self (by decide) hlow (Int.lt_of_le_sub_one hhigh)

/-- Settles O56: STP's pattern decodes to an STP, whose operand field its meaning ignores. -/
theorem toolchainWords : Obligations.ToolchainWords := by
  refine ⟨by decide, by decide, fun n s => ?_, fun _ => toInt_varWord, by decide, by decide⟩
  rw [decode_stpPattern]
  rfl

end Sys2Proof.Machine
end

section
/-! PROOFS. The arithmetic instructions together (R146), and the frames of the accumulator instructions (R22), of STO
(R131) and of JMP, JRP, CMP and STP. -/

namespace Sys2Proof.Machine

open Sys2Proof.Claims

/-! ## Reduction modulo 2^32 (R146) -/

/-- The signed value of a reduced integer differs from it by a multiple of 2^32. -/
theorem toInt_ofInt_eq_add_mul (x : Int) : ∃ k : Int, (BitVec.ofInt 32 x).toInt = x + k * 2 ^ 32 := by
  obtain ⟨k, hk⟩ : (2 ^ 32 : Int) ∣ x.bmod (2 ^ 32) - x := Int.dvd_bmod_sub_self
  exact ⟨k, by rw [BitVec.toInt_ofInt]; omega⟩

/-- Every arithmetic instruction completes and leaves the exact result, reduced, in the accumulator. -/
theorem exec_acc_of_exactResult {i : Instr} {s : State} {x : Int}
    (h : ExactResult i s.acc.toInt (operandWord s i.operand).toInt x) :
    ∃ t, exec i s = .next t ∧ t.acc = BitVec.ofInt 32 x := by
  rcases h with ⟨n, rfl, rfl⟩ | ⟨n, rfl | rfl, rfl⟩ | ⟨n, rfl, rfl⟩ | ⟨n, rfl, rfl⟩ | ⟨n, rfl, hm, rfl⟩
  · exact ⟨_, accumulate_next (fun _ m => negWord m) n s, rfl⟩
  · exact ⟨_, accumulate_next subWord n s, rfl⟩
  · exact ⟨_, accumulate_next subWord n s, rfl⟩
  · exact ⟨_, accumulate_next addWord n s, rfl⟩
  · exact ⟨_, accumulate_next mulWord n s, rfl⟩
  · exact ⟨_, exec_div_of_ne_zero hm, rfl⟩

/-- Settles O22: the accumulator holds the exact result reduced modulo 2^32. -/
theorem arithmeticWrapsModuloWord : Obligations.ArithmeticWrapsModuloWord := by
  intro i s x h
  obtain ⟨t, ht, hacc⟩ := exec_acc_of_exactResult h
  refine ⟨t, ht, ?_, BitVec.le_toInt t.acc, BitVec.toInt_lt, fun hlow hhigh => ?_⟩
  · rw [hacc]
    exact toInt_ofInt_eq_add_mul x
  · rw [hacc]
    exact BitVec.toInt_ofInt_eq_self (by decide) hlow hhigh

/-! ## Frames -/

/-- An instruction that is neither STO nor STP leaves all but the accumulator, `pc` and the return alone. -/
theorem Executed.onlyAccChanges {i : Instr} {s t : State} (he : Executed i s t) (hsto : ∀ n, i ≠ .sto n)
    (hstp : ∀ n, i ≠ .stp n) : OnlyAccChanges s t :=
  ⟨fun a => by rw [he.memOther hsto], he.ir, he.ctrlOther hstp, he.amode, he.xb, he.memSize⟩

/-- None of the accumulator instructions writes memory, the controller state or `pc`. -/
theorem ne_of_mem_accumulatorInstrs {n : Nat} {i : Instr} (hi : i ∈ accumulatorInstrs n) :
    (∀ k, i ≠ .sto k) ∧ (∀ k, i ≠ .stp k) ∧ (∀ k, i ≠ .jmp k) ∧ ∀ k, i ≠ .jrp k := by
  fin_cases hi <;> simp

/-- Settles O24: the eleven are not among the instructions that do more. -/
theorem accumulatorInstructionsFrame : Obligations.AccumulatorInstructionsFrame := by
  intro n s i hi
  obtain ⟨t, ht, he⟩ := exec_executed i s
  obtain ⟨hsto, hstp, hjmp, hjrp⟩ := ne_of_mem_accumulatorInstrs hi
  exact ⟨t, ht, he.pcOther hjmp hjrp, he.onlyAccChanges hsto hstp⟩

/-- Settles O25: one word is written, at the effective address, which lies inside the array. -/
theorem storeFrame : Obligations.StoreFrame := by
  intro n s hwf
  have hread := Memory.read_write (Memory.rising_of_wf hwf) (n % s.memSize.words)
  rw [effectiveAddress_eq]
  refine ⟨_, exec_sto n s, fun a ha => ?_, Nat.mod_lt _ s.memSize.words_pos, ?_, rfl, rfl, rfl, rfl, rfl, rfl, rfl⟩
  · exact (hread a s.acc).trans (if_neg ha)
  · exact (hread _ s.acc).trans (if_pos rfl)

/-- Settles O26, from the next state of each of the four. -/
theorem transferCompareStopFrame : Obligations.TransferCompareStopFrame := by
  intro n s i hi
  fin_cases hi
  · exact ⟨_, exec_jmp n s, fun _ => rfl, rfl, rfl, rfl, rfl, rfl, fun _ => rfl⟩
  · exact ⟨_, exec_jrp n s, fun _ => rfl, rfl, rfl, rfl, rfl, rfl, fun _ => rfl⟩
  · exact ⟨_, execCmp_eq n s, fun _ => rfl, rfl, rfl, rfl, rfl, rfl, fun _ => rfl⟩
  · exact ⟨_, exec_stp n s, fun _ => rfl, rfl, rfl, rfl, rfl, rfl, fun hne => absurd rfl hne⟩

end Sys2Proof.Machine
end

section
/-! PROOFS. The statements on 20_memory.md: reads after writes (R60), the canonical form, who writes memory (R34) and the
fetch of a stored word (R63). -/

namespace Sys2Proof.Machine

open Sys2Proof.Claims

/-! ## Reads after any number of writes (R60) -/

/-- Writing a list of (address, word), first to last. -/
def Memory.writeAll (m : Memory) (writes : List (Nat × Word)) : Memory :=
  writes.foldl (fun m p => Memory.write m p.1 p.2) m

theorem Memory.writeAll_wf {size : Nat} {m : Memory} (h : Memory.wf size m = true) {writes : List (Nat × Word)}
    (hlt : ∀ p ∈ writes, p.1 < size) : Memory.wf size (Memory.writeAll m writes) = true := by
  induction writes generalizing m with
  | nil => exact h
  | cons p writes ih =>
    obtain ⟨hp, hwrites⟩ := List.forall_mem_cons.1 hlt
    exact ih (Memory.write_wf h hp p.2) hwrites

/-- The last write to an address decides what it reads as; an address without a write reads as before. -/
theorem Memory.read_writeAll {m : Memory} (h : Memory.rising m = true) (writes : List (Nat × Word)) (a : Nat) :
    Memory.read (Memory.writeAll m writes) a =
      ((writes.reverse.find? (fun p => p.1 = a)).map Prod.snd).getD (Memory.read m a) := by
  induction writes generalizing m with
  | nil => rfl
  | cons p writes ih =>
    calc Memory.read (Memory.writeAll m (p :: writes)) a
      _ = ((writes.reverse.find? (fun p => p.1 = a)).map Prod.snd).getD (if a = p.1 then p.2 else Memory.read m a) :=
        (ih (Memory.write_rising h p.1 p.2)).trans (by rw [Memory.read_write h])
      _ = (((p :: writes).reverse.find? (fun p => p.1 = a)).map Prod.snd).getD (Memory.read m a) := by
        rw [List.reverse_cons, List.find?_append]
        cases writes.reverse.find? (fun p => p.1 = a) with
        | some q => rfl
        | none =>
          rcases eq_or_ne a p.1 with rfl | hne
          · simp
          · simp [hne, hne.symm]

/-- Settles O40: the writes go over the memory that the load left. -/
theorem readReturnsTheLastWrite : Obligations.ReadReturnsTheLastWrite := by
  intro size loaded writes hlen hlt
  have hwf : Memory.wf size (Memory.place [] 0 loaded) = true :=
    Memory.place_wf (Memory.wf_nil size) 0 loaded (by rwa [Nat.zero_add])
  refine ⟨Memory.writeAll_wf hwf hlt, fun a => ?_⟩
  refine (Memory.read_writeAll (Memory.rising_of_wf hwf) writes a).trans ?_
  rw [Memory.read_place rfl, if_pos a.zero_le, Nat.sub_zero, Memory.read_nil, List.getD_eq_getElem?_getD]

/-! ## The canonical form -/

/-- A word that is not the unlisted one is read from an entry. -/
theorem Memory.mem_of_read {m : Memory} {a : Nat} (h : Memory.read m a ≠ Memory.unlisted) :
    (a, Memory.read m a) ∈ m := by
  induction m with
  | nil => exact absurd rfl h
  | cons c m ih =>
    obtain ⟨b, v⟩ := c
    simp only [Memory.read] at h ⊢
    split_ifs at h ⊢ with hlt heq
    · exact absurd rfl h
    · simp [heq]
    · exact List.mem_cons_of_mem _ (ih h)

/-- Every entry is what its address reads as. -/
theorem Memory.read_of_mem {m : Memory} (hm : Memory.rising m = true) {c : Nat × Word} (h : c ∈ m) :
    Memory.read m c.1 = c.2 := by
  induction m with
  | nil => cases h
  | cons d m ih =>
    obtain ⟨hd, hm⟩ := (Memory.rising_cons _ _).1 hm
    rcases List.mem_cons.1 h with rfl | h
    · simp [Memory.read]
    · have hlt : d.1 < c.1 := hd c h
      rw [Memory.read, if_neg (by omega), if_neg (by omega), ih hm h]

theorem Memory.pairwise_of_rising {m : Memory} (h : Memory.rising m = true) :
    m.Pairwise fun c d => c.1 < d.1 := by
  induction m with
  | nil => exact .nil
  | cons c m ih =>
    obtain ⟨hc, hm⟩ := (Memory.rising_cons _ _).1 h
    exact .cons hc (ih hm)

/-- A canonical memory's entries stand in every canonical memory that reads the same. -/
theorem Memory.subset_of_reads {size : Nat} {m m' : Memory} (hm : Memory.wf size m = true)
    (hread : ∀ a < size, Memory.read m a = Memory.read m' a) : m ⊆ m' := by
  intro c hc
  obtain ⟨hrising, hentries⟩ := (Memory.wf_iff _ _).1 hm
  obtain ⟨hlt, hlisted⟩ := hentries c hc
  have hread' : Memory.read m' c.1 = c.2 := (hread c.1 hlt).symm.trans (Memory.read_of_mem hrising hc)
  have hmem : (c.1, Memory.read m' c.1) ∈ m' := Memory.mem_of_read (hread' ▸ hlisted)
  rwa [hread'] at hmem

/-- Settles O41: the two lists hold the same entries, in the one rising order. -/
theorem canonicalMemoriesWithEqualReadsAreEqual : Obligations.CanonicalMemoriesWithEqualReadsAreEqual := by
  intro size m m' hm hm' hread
  have hantisymm : Std.Antisymm fun c d : Nat × Word => c.1 < d.1 := ⟨fun _ _ h h' => absurd h' (Nat.lt_asymm h)⟩
  have hirrefl : Std.Irrefl fun c d : Nat × Word => c.1 < d.1 := ⟨fun c => Nat.lt_irrefl c.1⟩
  exact List.Subset.antisymm_of_pairwise (Memory.pairwise_of_rising (Memory.rising_of_wf hm))
    (Memory.pairwise_of_rising (Memory.rising_of_wf hm')) (Memory.subset_of_reads hm hread)
    (Memory.subset_of_reads hm' fun a ha => (hread a ha).symm)

/-! ## Who writes memory, and the fetch of what was written (R34, R63) -/

/-- A step that does not execute an STO keeps the memory array. -/
theorem step_mem_of_not_sto {s t : State} (h : step s = .next t) (hsto : ∀ n, ¬ Executes s (.sto n)) :
    t.mem = s.mem := by
  cases step_inv h with
  | stopped _ ht | fetchRange _ _ ht | skipped _ _ ht => simp [ht]
  | executed hr hpc hlt _ he => exact he.memOther fun n hn => hsto n ⟨hr, hpc, hlt, hn⟩

/-- A step that executes an STO writes the accumulator at the effective address. -/
theorem step_mem_of_sto {s t : State} {n : Nat} (h : step s = .next t) (hsto : Executes s (.sto n)) :
    t.mem = Memory.write s.mem (n % s.memSize.words) s.acc := by
  obtain ⟨hr, hpc, hlt, hdecode⟩ := hsto
  have hstep := step_of_executes hr hpc hlt
  rw [h] at hstep
  exact (exec_inv hstep.symm).memSto n hdecode

/-- Settles O32: a changed word means an STO, and read-after-write says which word it changed. -/
theorem onlyStoWritesMemory : Obligations.OnlyStoWritesMemory := by
  intro s t a hwf h hchanged
  by_cases hsto : ∃ n, Executes s (.sto n)
  · obtain ⟨n, hn⟩ := hsto
    have hread : Memory.read t.mem a = if a = n % s.memSize.words then s.acc else Memory.read s.mem a := by
      rw [step_mem_of_sto h hn, Memory.read_write (Memory.rising_of_wf hwf)]
    by_cases ha : a = n % s.memSize.words
    · exact ⟨n, hn, ha, hread.trans (if_pos ha)⟩
    · exact absurd (hread.trans (if_neg ha)) hchanged
  · exact absurd (by rw [step_mem_of_not_sto h (not_exists.1 hsto)]) hchanged

/-- Settles O39: the step at the stored address fetches what read-after-write gives there. -/
theorem storedWordIsFetched : Obligations.StoredWordIsFetched := by
  intro n s t u hwf h
  have he : Executed (.sto n) s t := exec_inv h
  refine ⟨he.ir, fun hmem hsize hr hpc haddr => ?_⟩
  rw [effectiveAddress_eq] at haddr
  have hlt : u.pc.toNat < u.memSize.words := by
    rw [haddr, hsize, he.memSize]
    exact Nat.mod_lt _ s.memSize.words_pos
  have hword : Memory.read u.mem u.pc.toNat = s.acc := by
    rw [hmem, he.memSto n rfl, haddr, Memory.read_write (Memory.rising_of_wf hwf), if_pos rfl]
  rw [step_of_executes hr hpc hlt, hword]
  rfl

end Sys2Proof.Machine
end

section
/-! PROOFS. The statements on the controller that remain: the step of an executing core (R100, R103, R106), the values and
the event each step returns (R109, R206), the first two steps of a run (R231) and the step after a word was placed. -/

namespace Sys2Proof.Machine

open Sys2Proof.Claims

/-! ## The step of an executing core (R100, R103, R106) -/

/-- Settles O27: `step_of_executes` with the instruction named. -/
theorem stepRunsTheDecodedInstruction : Obligations.StepRunsTheDecodedInstruction := by
  rintro s _ hr hpc hlt rfl
  exact step_of_executes hr hpc hlt

/-! ## What a step returns (R109, R206) -/

/-- The return of the next step, but for `still_running`: whether it runs a cycle and the event it reports, by the first of
R206's checks that applies. -/
def State.nextReport (s : State) : Bool × Event :=
  if s.ctrl ≠ .running then (false, .none)
  else if s.memSize.words ≤ s.pc.toNat then (false, .fetchFault s.pc)
  else if s.pc = 0 then (true, .skip)
  else (true, executionEvent s (decode (Memory.read s.mem s.pc.toNat)))

theorem State.nextReport_of_stopped {s : State} (hs : s.ctrl ≠ .running) : s.nextReport = (false, .none) := if_pos hs

theorem State.nextReport_of_out_of_range {s : State} (hr : s.ctrl = .running) (hpc : s.memSize.words ≤ s.pc.toNat) :
    s.nextReport = (false, .fetchFault s.pc) := by
  rw [State.nextReport, if_neg (not_not.2 hr), if_pos hpc]

theorem State.nextReport_of_zero {s : State} (hr : s.ctrl = .running) (hpc : s.pc = 0) :
    s.nextReport = (true, .skip) := by
  have hlt : ¬ s.memSize.words ≤ s.pc.toNat := by simp [hpc, s.memSize.words_pos.ne']
  rw [State.nextReport, if_neg (not_not.2 hr), if_neg hlt, if_pos hpc]

theorem State.nextReport_of_executes {s : State} {i : Instr} (h : Executes s i) :
    s.nextReport = (true, executionEvent s i) := by
  obtain ⟨hr, hpc, hlt, rfl⟩ := h
  rw [State.nextReport, if_neg (not_not.2 hr), if_neg (Nat.not_le.2 hlt), if_neg hpc]

/-- The event of an instruction does not depend on `ir`. -/
theorem executionEvent_setIr (s : State) (w : Word) (i : Instr) :
    executionEvent (s.setIr w) i = executionEvent s i := by cases i <;> rfl

/-- Every step returns its report, and `still_running` as the controller stands after it. -/
theorem step_ret {s t : State} (h : step s = .next t) :
    t.ret = some { ran := s.nextReport.1, stillRunning := t.running, event := s.nextReport.2 } := by
  cases step_inv h with
  | stopped hstop ht =>
    have hrunning : s.running = false := by simp [State.running, hstop]
    simp [ht, hrunning, State.nextReport_of_stopped hstop]
  | fetchRange hr hpc ht => simp [ht, State.nextReport_of_out_of_range hr hpc]
  | skipped hr hpc ht => simp [ht, State.nextReport_of_zero hr hpc]
  | executed hr hpc hlt hex _ =>
    rw [State.nextReport_of_executes ⟨hr, hpc, hlt, rfl⟩, exec_ret hex, executionEvent_setIr]
    rfl

theorem step_stillRunning {s t : State} {r : StepReturn} (h : step s = .next t) (hret : t.ret = some r) :
    r.stillRunning = t.running := by
  cases (step_ret h).symm.trans hret
  rfl

/-- Settles O34: the report of the step, check by check; the event of an executed instruction is its own. -/
theorem stepReportsTheFirstCheckThatApplies : Obligations.StepReportsTheFirstCheckThatApplies := by
  intro s
  obtain ⟨t, ht, -⟩ := step_cases s
  refine ⟨t, _, ht, step_ret ht, rfl, ?_⟩
  dsimp only [State.nextReport]
  split_ifs with hr hout hpc
  · exact ⟨rfl, rfl⟩
  · exact ⟨rfl, rfl⟩
  · exact ⟨rfl, rfl⟩
  · refine ⟨rfl, ?_⟩
    cases decode (Memory.read s.mem s.pc.toNat) <;> rfl

/-! ## The first two steps of a run (R231) -/

/-- The step after the skip runs the word at address 1. -/
theorem step_of_pc_one {s : State} (hr : s.ctrl = .running) (hpc : s.pc = 1) :
    step s = exec (decode (Memory.read s.mem 1)) (s.setIr (Memory.read s.mem 1)) := by
  have hone : s.pc.toNat = 1 := by simp [hpc]
  have hlt : s.pc.toNat < s.memSize.words := by
    have := s.memSize.words_ge
    omega
  rw [step_of_executes hr (by simp [hpc]) hlt, hone]

/-- Settles O48: a load leaves `pc` at 0 and the core RUNNING, so the skip comes first. -/
theorem firstInstructionIsAtAddressOne : Obligations.FirstInstructionIsAtAddressOne := by
  intro m k file s h
  obtain ⟨-, ws, -, rfl⟩ := load_success h
  exact ⟨_, step_of_pc_zero rfl rfl, rfl, rfl, rfl, step_of_pc_one rfl rfl⟩

/-! ## A placed word -/

/-- Where `withFetchWord` stores its word: `pc` if an instruction is executed from there, else address 1. -/
def State.placeTarget (s : State) : Word := if s.pc = 0 ∨ s.memSize.words ≤ s.pc.toNat then 1 else s.pc

/-- An instruction is executed from the address of a placed word. -/
theorem State.placeTarget_executable (s : State) : s.placeTarget ≠ 0 ∧ s.placeTarget.toNat < s.memSize.words := by
  rw [State.placeTarget]
  split_ifs with h
  · have hone : (1 : Word).toNat < s.memSize.words := lt_of_lt_of_le (by decide) s.memSize.words_ge
    exact ⟨by decide, hone⟩
  · obtain ⟨hpc, hlt⟩ := not_or.1 h
    exact ⟨hpc, Nat.not_le.1 hlt⟩

theorem State.withFetchWord_eq (s : State) {w : Nat} (hw : w < 2 ^ 32) :
    s.withFetchWord 32 w =
      ((s.setMem (Memory.write s.mem s.placeTarget.toNat (BitVec.ofNat 32 w))).setPc s.placeTarget).setCtrl .running := by
  rw [State.withFetchWord, Nat.mod_eq_of_lt hw]
  rfl

/-- Settles O54: the placed word is what the fetch reads, from an address that is neither 0 nor outside memory. -/
theorem placedWordRunsNext : Obligations.PlacedWordRunsNext := by
  intro s w hw hrising
  obtain ⟨hpc, hlt⟩ := s.placeTarget_executable
  have hread : Memory.read (s.withFetchWord 32 w).mem (s.withFetchWord 32 w).pc.toNat = BitVec.ofNat 32 w := by
    rw [State.withFetchWord_eq s hw]
    exact (Memory.read_write hrising _ _ _).trans (if_pos rfl)
  rw [stepRunsTheDecodedInstruction _ _ ?running ?nonzero ?inside (congrArg decode hread), hread]
  all_goals rw [State.withFetchWord_eq s hw]
  exacts [rfl, hpc, hlt]

end Sys2Proof.Machine
end

section
/-! PROOFS. The invariant (R25, R32, R34, R37), its induction over what the host can bring about (R232), the parameters
(R6, R32), and what no observation of a run can show (R28, R33, R38). -/

namespace Sys2Proof.Machine

open Sys2Proof.Claims

/-! ## The parameters (R6, R32) -/

/-- DIRECT is the only value of the selector (R32). -/
theorem AMode.eq_direct (m : AMode) : m = .direct := by cases m; rfl

theorem step_memSize {s t : State} (h : step s = .next t) : t.memSize = s.memSize := by
  cases step_inv h with
  | stopped _ ht | fetchRange _ _ ht | skipped _ _ ht => simp [ht]
  | executed _ _ _ _ he => exact he.memSize

/-- Settles O37: neither a step nor a load writes MEM_SIZE, and the selector has one value. -/
theorem parametersNeverChange : Obligations.ParametersNeverChange := by
  refine ⟨fun s t h => ⟨step_memSize h, t.amode.eq_direct⟩, fun file s t h => ⟨?_, t.amode.eq_direct⟩⟩
  obtain ⟨-, ws, -, rfl⟩ := load_success h
  rfl

/-! ## The invariant -/

theorem create_inv (m : MemSize) (k : Nat) : (State.create m k).Inv := ⟨Memory.wf_nil _, Nat.zero_le _, rfl, nofun⟩

/-- Settles O42: the empty list is canonical, and nothing was returned yet. -/
theorem freshStateMeetsTheInvariant : Obligations.FreshStateMeetsTheInvariant := ⟨create_inv, create_inv _ _⟩

theorem step_wf {s t : State} (hwf : Memory.wf s.memSize.words s.mem = true) (h : step s = .next t) :
    Memory.wf t.memSize.words t.mem = true := by
  rw [step_memSize h]
  by_cases hsto : ∃ n, Executes s (.sto n)
  · obtain ⟨n, hn⟩ := hsto
    rw [step_mem_of_sto h hn]
    exact Memory.write_wf hwf (Nat.mod_lt _ s.memSize.words_pos) s.acc
  · rwa [step_mem_of_not_sto h (not_exists.1 hsto)]

/-- R25's bound: an executing address is at most 63 and an operand at most 8191, so no instruction leads `pc` further. -/
theorem exec_pc_le {i : Instr} {s t : State} (h : exec i s = .next t) (hlt : s.pc.toNat < s.memSize.words)
    (hi : i.operand < 8192) : t.pc.toNat ≤ 8254 := by
  have hwords : s.memSize.words ≤ 64 := s.memSize.words_le
  obtain ⟨hnext, hjmp, hjrp⟩ := pcAdvancesUnlessWritten i s t h
  by_cases hj : ∃ n, i = .jmp n
  · obtain ⟨n, rfl⟩ := hj
    have hn : n < 8192 := hi
    rw [hjmp n rfl (by omega)]
    omega
  · by_cases hk : ∃ n, i = .jrp n
    · obtain ⟨n, rfl⟩ := hk
      have hn : n < 8192 := hi
      rw [hjrp n rfl (by omega)]
      omega
    · rw [hnext (not_exists.1 hj) (not_exists.1 hk) (by omega)]
      omega

theorem step_pc_le {s t : State} (hpc : s.pc.toNat ≤ 8254) (h : step s = .next t) : t.pc.toNat ≤ 8254 := by
  cases step_inv h with
  | stopped _ ht | fetchRange _ _ ht => simpa [ht] using hpc
  | skipped _ _ ht => simp [ht]
  | executed _ _ hlt hex _ => exact exec_pc_le hex hlt (decode_operand _ ▸ operandField_lt _)

/-- Settles O43, field by field of the invariant. -/
theorem stepKeepsTheInvariant : Obligations.StepKeepsTheInvariant := by
  intro s t hinv h
  exact ⟨step_wf hinv.memory h, step_pc_le hinv.pcBound h, t.amode.eq_direct, fun r hret => step_stillRunning h hret⟩

theorem load_inv {file : List Char} {s t : State} (hinv : s.Inv) (h : load file s = .success t) : t.Inv := by
  obtain ⟨-, ws, hws, rfl⟩ := load_success h
  have hfits : 0 + ws.length ≤ s.memSize.words := by
    rw [Nat.zero_add]
    exact parseFile_length hws
  exact ⟨Memory.place_wf hinv.memory 0 ws hfits, hinv.pcBound, hinv.mode, hinv.returned⟩

theorem load_xb {file : List Char} {s t : State} (h : load file s = .success t) : t.xb = s.xb := by
  obtain ⟨-, ws, -, rfl⟩ := load_success h
  rfl

/-- Settles O44, by induction over what the host did; no load and no step writes an index/base register. -/
theorem reachableStatesMeetTheInvariant : Obligations.ReachableStatesMeetTheInvariant := by
  intro s h
  induction h with
  | create m k => exact ⟨create_inv m k, fun _ => List.eq_of_mem_replicate⟩
  | load file _ hload ih =>
    obtain ⟨hinv, hxb⟩ := ih
    exact ⟨load_inv hinv hload, load_xb hload ▸ hxb⟩
  | step _ hstep ih =>
    obtain ⟨hinv, hxb⟩ := ih
    exact ⟨stepKeepsTheInvariant _ _ hinv hstep, step_xb hstep ▸ hxb⟩

/-! ## What cannot be observed (R28, R33, R38) -/

/-- States that agree differ in the unread fields only. -/
theorem State.AgreesWith.eq_withUnread {s s' : State} (h : s.AgreesWith s') :
    s' = s.withUnread s'.ir s'.xb s'.ret := by
  obtain ⟨hmemSize, hmem, hacc, hpc, hctrl, hamode⟩ := h
  rw [State.withUnread, hmemSize, hmem, hacc, hpc, hctrl, hamode]

/-- Settles O45: a step does the same, and returns the same, whatever the unread fields hold. -/
theorem unreadStateIsUnobservable : Obligations.UnreadStateIsUnobservable := by
  intro s s' t hagree h
  rw [hagree.eq_withUnread]
  exact ⟨_, step_withUnread h, ⟨rfl, rfl, rfl, rfl, rfl, rfl⟩, rfl⟩

end Sys2Proof.Machine
end

section
/-! PROOFS. The refinement: each case of a step is a line of R109 as `Reference.step` reads it over the flat machine. -/

namespace Sys2Proof.Reference

open Sys2Proof.Machine Sys2Proof.Claims

/-! ## The flat machine's step, case by case -/

/-- The end of a cycle that executed an operation (R108, R109): the increment unless `pc` was written, and the return. -/
def complete (r : Baby × Event × Bool) : Baby × StepReturn :=
  let t : Baby := if r.2.2 then r.1 else { r.1 with pc := r.1.pc + 1 }
  (t, { ran := true, stillRunning := t.ctrl == .running, event := r.2.1 })

section flatSteps
variable {b : Baby}

theorem step_of_stopped (hs : b.ctrl ≠ .running) :
    step b = (b, { ran := false, stillRunning := false, event := .none }) := if_pos hs

theorem step_of_out_of_range (hr : b.ctrl = .running) (hpc : b.size ≤ b.pc) :
    step b = ({ b with ctrl := .faulted },
      { ran := false, stillRunning := false, event := .fetchFault (BitVec.ofNat 32 b.pc) }) := by
  rw [step, if_neg (not_not.2 hr), if_pos hpc]

theorem step_of_zero (hr : b.ctrl = .running) (hpc : b.pc = 0) (hsize : 0 < b.size) :
    step b = ({ b with ir := b.mem b.pc, pc := 1 }, { ran := true, stillRunning := true, event := .skip }) := by
  rw [step, if_neg (not_not.2 hr), if_neg (by omega)]
  exact if_pos hpc

theorem step_of_op (hr : b.ctrl = .running) (hpc : b.pc ≠ 0) (hlt : b.pc < b.size) :
    step b =
      complete (op (codeField (b.mem b.pc)) (operandField (b.mem b.pc)) { b with ir := b.mem b.pc }) := by
  rw [step, if_neg (not_not.2 hr), if_neg (by omega)]
  exact if_neg hpc

end flatSteps

/-! ## The refinement of an instruction -/

/-- A state and its latched return are what the flat machine answers. -/
def Refines (t : State) (r : Baby × StepReturn) : Prop := flat t = r.1 ∧ t.ret = some r.2

section operations
variable {s t : State} {n : Nat}

theorem flat_setPc {target : Word} (h : target.toNat = n) : flat (s.setPc target) = { flat s with pc := n } := by
  subst h
  rfl

theorem ofNat_flat_pc : BitVec.ofNat 32 (flat s).pc = s.pc := by simp [flat]

/-- A rule that does not write `pc`: the flat machine's own increment gives the register's (R108). -/
theorem refines_retire {b : Baby} {ev : Event} (hfits : s.pc.toNat + 1 < 2 ^ 32) (hflat : flat s = b) :
    Refines ((s.setPc (s.pc + 1)).report ev) (complete (b, ev, false)) := by
  have hpc : (s.pc + 1).toNat = s.pc.toNat + 1 := toNat_add_ofNat_of_lt hfits
  subst hflat
  exact ⟨flat_setPc hpc, rfl⟩

/-- An accumulator operation in exact integers is the flat machine's in vector arithmetic. -/
theorem accumulate_refines {f g : Word → Word → Word} (hfg : ∀ a m, f a m = g a m) (hfits : s.pc.toNat + 1 < 2 ^ 32)
    (h : accumulate f n s = .next t) :
    Refines t (complete ({ flat s with acc := g s.acc (operandWord s n) }, .none, false)) := by
  cases (accumulate_eq f n s).symm.trans h
  refine refines_retire (s := s.setAcc _) hfits ?_
  rw [hfg]
  rfl

theorem jmp_refines (hn : n < 8192) (h : exec (.jmp n) s = .next t) :
    Refines t (complete ({ flat s with pc := n }, .none, true)) := by
  cases h
  have hpc : (BitVec.ofNat 32 n).toNat = n := Nat.mod_eq_of_lt (by omega)
  exact ⟨flat_setPc hpc, rfl⟩

theorem jrp_refines (hfits : s.pc.toNat + n < 2 ^ 32) (h : exec (.jrp n) s = .next t) :
    Refines t (complete ({ flat s with pc := s.pc.toNat + n }, .none, true)) := by
  cases h
  have hpc : (s.pc + BitVec.ofNat 32 n).toNat = s.pc.toNat + n := toNat_add_ofNat_of_lt hfits
  exact ⟨flat_setPc hpc, rfl⟩

/-- The store updates the flat memory at one address: read-after-write. -/
theorem sto_refines (hrising : Memory.rising s.mem = true) (hfits : s.pc.toNat + 1 < 2 ^ 32)
    (h : exec (.sto n) s = .next t) :
    Refines t (complete ({ flat s with
      mem := fun a => if a = n % s.memSize.words then s.acc else Memory.read s.mem a }, .none, false)) := by
  cases (execSto_eq n s).symm.trans h
  refine refines_retire (s := s.setMem _) hfits ?_
  have hread := funext fun a => Memory.read_write hrising (n % s.memSize.words) a s.acc
  rw [← hread]
  rfl

theorem div_refines (hfits : s.pc.toNat + 1 < 2 ^ 32) (h : exec (.div n) s = .next t) :
    Refines t (complete (if operandWord s n = 0 then (flat s, .divZero s.pc, false)
      else ({ flat s with acc := s.acc.sdiv (operandWord s n) }, .none, false))) := by
  by_cases hz : operandWord s n = 0
  · cases (exec_div_of_zero ((s32_eq_zero _).2 hz)).symm.trans h
    rw [if_pos hz]
    exact refines_retire hfits rfl
  · cases (exec_div_of_ne_zero (mt (s32_eq_zero _).1 hz)).symm.trans h
    rw [if_neg hz, ← divWord_eq]
    exact refines_retire (s := s.setAcc (divWord s.acc (operandWord s n))) hfits rfl

theorem cmp_refines (hfits : s.pc.toNat + 1 < 2 ^ 32) (h : exec (.cmp n) s = .next t) :
    Refines t (complete (flat s, .cmp s.pc s.acc.toInt (operandWord s n).toInt, false)) := by
  cases (execCmp_eq n s).symm.trans h
  exact refines_retire hfits rfl

theorem stp_refines (hfits : s.pc.toNat + 1 < 2 ^ 32) (h : exec (.stp n) s = .next t) :
    Refines t (complete ({ flat s with ctrl := .halted }, .halt s.pc, false)) := by
  cases h
  exact refines_retire (s := s.setCtrl .halted) hfits rfl

end operations

/-- Where an instruction executes, its meaning is the flat machine's operation of the same code and operand. -/
theorem exec_refines {i : Instr} {s t : State} (hrising : Memory.rising s.mem = true)
    (hfits : s.pc.toNat + 8192 < 2 ^ 32) (hi : i.operand < 8192) (h : exec i s = .next t) :
    Refines t (complete (op i.code i.operand (flat s))) := by
  have hinc : s.pc.toNat + 1 < 2 ^ 32 := by omega
  cases i with
  | jmp n => exact jmp_refines hi h
  | jrp n => exact jrp_refines (lt_trans (Nat.add_lt_add_left hi _) hfits) h
  | ldn n => exact accumulate_refines (g := fun _ m => -m) (fun _ m => negWord_eq m) hinc h
  | sto n => exact sto_refines hrising hinc h
  | sub n | sub2 n => exact accumulate_refines (g := (· - ·)) subWord_eq hinc h
  | cmp n =>
    simp only [Instr.code, Instr.operand, op, ofNat_flat_pc]
    exact cmp_refines hinc h
  | stp n =>
    simp only [Instr.code, op, ofNat_flat_pc]
    exact stp_refines hinc h
  | add n => exact accumulate_refines (g := (· + ·)) addWord_eq hinc h
  | mul n => exact accumulate_refines (g := (· * ·)) mulWord_eq hinc h
  | div n =>
    simp only [Instr.code, Instr.operand, op, ofNat_flat_pc]
    exact div_refines hinc h
  | and n => exact accumulate_refines (g := (· &&& ·)) (fun _ _ => rfl) hinc h
  | or n => exact accumulate_refines (g := (· ||| ·)) (fun _ _ => rfl) hinc h
  | xor n => exact accumulate_refines (g := (· ^^^ ·)) (fun _ _ => rfl) hinc h
  | shl n => exact accumulate_refines (g := fun a m => a <<< (m.toNat % 32)) shlWord_eq hinc h
  | shr n => exact accumulate_refines (g := fun a m => a.sshiftRight (m.toNat % 32)) shrWord_eq hinc h

/-- The flat machine dispatches on the fields that the decoder reads. -/
theorem exec_decode_refines {w : Word} {s t : State} (hrising : Memory.rising s.mem = true)
    (hfits : s.pc.toNat + 8192 < 2 ^ 32) (h : exec (decode w) s = .next t) :
    Refines t (complete (op (codeField w) (operandField w) (flat s))) := by
  rw [← decode_code, ← decode_operand]
  exact exec_refines hrising hfits (decode_operand w ▸ operandField_lt w) h

/-! ## The refinement of a step -/

/-- Settles O46, by the four cases of a step; the invariant keeps `pc` far from the register's end. -/
theorem stepRefinesTheFlatMachine : Obligations.StepRefinesTheFlatMachine := by
  intro s hinv
  obtain ⟨t, ht, hcase⟩ := step_cases s
  refine ⟨t, ht, ?_⟩
  show Refines t (step (flat s))
  cases hcase with
  | stopped hstop ht =>
    rw [step_of_stopped (b := flat s) hstop, ht]
    exact ⟨rfl, rfl⟩
  | fetchRange hr hpc ht =>
    rw [step_of_out_of_range (b := flat s) hr hpc, ht]
    exact ⟨rfl, by simp [flat]⟩
  | skipped hr hpc ht =>
    have hzero : s.pc.toNat = 0 := by simp [hpc]
    rw [step_of_zero (b := flat s) hr hzero s.memSize.words_pos, ht]
    rw [State.report_of_running (by simpa using hr)]
    exact ⟨by simp [flat, hzero], rfl⟩
  | executed hr hpc hlt hex _ =>
    have hne : s.pc.toNat ≠ 0 := fun h => hpc (BitVec.eq_of_toNat_eq h)
    rw [step_of_op (b := flat s) hr hne hlt]
    have hfits : s.pc.toNat + 8192 < 2 ^ 32 := by
      have := hinv.pcBound
      omega
    exact exec_decode_refines (s := s.setIr (Memory.read s.mem s.pc.toNat)) (Memory.rising_of_wf hinv.memory) hfits hex

end Sys2Proof.Reference
end

section
/-! PROOFS. What the host does with the core: `load` after a step (R36), the run (R110), the count of executed instructions
(R111), and the assembled file (R90, R234). -/

namespace Sys2Proof.Machine

open Sys2Proof.Claims

/-! ## `load` after a step (R36) -/

/-- Settles O51: a fresh state has returned nothing yet, and it is RUNNING. -/
theorem loadIsDeclinedAfterAStep : Obligations.LoadIsDeclinedAfterAStep := by
  refine ⟨fun s t file h => ?stepped, fun s file hs => ?stopped⟩
  all_goals
    rw [load_eq_notFresh_iff, ← Bool.not_eq_true, State.isFresh_iff]
    intro hfresh
  case stepped =>
    have hret : t.ret = none := congrArg State.ret hfresh
    exact Option.some_ne_none _ ((step_ret h).symm.trans hret)
  case stopped => exact hs (congrArg State.ctrl hfresh)

/-! ## The host's run (R110) -/

/-- The host's run under a limit, from a state to its last one, with the returns it collects. -/
inductive HostRuns : Nat → State → List StepReturn → State → Prop where
  /-- The limit is reached (R9). -/
  | limit (s : State) : HostRuns 0 s [] s
  /-- The step does not leave the core running. -/
  | stop {k : Nat} {s t : State} {r : StepReturn} (hstep : step s = .next t) (hret : t.ret = some r)
      (hstop : t.running = false) : HostRuns (k + 1) s [r] t
  /-- The step leaves the core running, and the host goes on. -/
  | goOn {k : Nat} {s t u : State} {r : StepReturn} {trace : List StepReturn} (hstep : step s = .next t)
      (hret : t.ret = some r) (hgoes : t.running = true) (hrest : HostRuns k t trace u) : HostRuns (k + 1) s (r :: trace) u

/-- After a step the host goes on exactly if the core is still RUNNING. -/
theorem step_mayContinue {s t : State} (h : step s = .next t) : t.mayContinue = t.running := by
  rw [State.mayContinue, step_ret h]

section equations
variable {s t : State} (k : Nat) (h : step s = .next t)
include h

theorem hostRun_succ : hostRun (k + 1) s = if t.running then hostRun k t else .next t := by
  rw [hostRun, h, ← step_mayContinue h]

theorem hostTrace_succ :
    hostTrace (k + 1) s =
      { ran := s.nextReport.1, stillRunning := t.running, event := s.nextReport.2 } ::
        if t.running then hostTrace k t else [] := by
  simp only [hostTrace, h, step_ret h, step_mayContinue h]

theorem executingStates_succ :
    executingStates (k + 1) s = s.executesNext.toNat + if t.running then executingStates k t else 0 := by
  rw [executingStates, h, ← step_mayContinue h]

end equations

/-- The model's run and trace are such a run. -/
theorem hostRun_hostRuns (k : Nat) (s : State) : ∃ t, hostRun k s = .next t ∧ HostRuns k s (hostTrace k s) t := by
  induction k generalizing s with
  | zero => exact ⟨s, rfl, .limit s⟩
  | succ k ih =>
    obtain ⟨t, ht, -⟩ := step_cases s
    rw [hostRun_succ k ht, hostTrace_succ k ht]
    by_cases hrun : t.running = true
    · obtain ⟨u, hu, hrest⟩ := ih t
      rw [if_pos hrun, if_pos hrun]
      exact ⟨u, hu, .goOn ht (step_ret ht) hrun hrest⟩
    · rw [if_neg hrun, if_neg hrun]
      exact ⟨t, rfl, .stop ht (step_ret ht) (Bool.eq_false_of_not_eq_true hrun)⟩

section runs
variable {k : Nat} {s t : State} {trace : List StepReturn}

theorem HostRuns.length_le (h : HostRuns k s trace t) : trace.length ≤ k := by
  induction h with
  | limit => exact Nat.le_refl 0
  | stop => exact Nat.succ_le_succ (Nat.zero_le _)
  | goOn _ _ _ _ ih => exact Nat.succ_le_succ ih

/-- Only the limit leaves the core RUNNING. -/
theorem HostRuns.stopped_of_length_lt (h : HostRuns k s trace t) (hlt : trace.length < k) : t.running = false := by
  induction h with
  | limit => exact absurd hlt (Nat.lt_irrefl 0)
  | stop _ _ hstop => exact hstop
  | goOn _ _ _ _ ih => exact ih (Nat.lt_of_succ_lt_succ hlt)

/-- The last return, `r` where the run took no step, says how the controller stands in the end. -/
theorem HostRuns.last_stillRunning (h : HostRuns k s trace t) {r : StepReturn} (hr : r.stillRunning = s.running) :
    (trace.getLastD r).stillRunning = t.running := by
  induction h generalizing r with
  | limit => exact hr
  | stop hstep hret => exact step_stillRunning hstep hret
  | goOn hstep hret _ _ ih =>
    rw [List.getLastD_cons]
    exact ih (step_stillRunning hstep hret)

theorem HostRuns.stillRunning_of_mem_dropLast (h : HostRuns k s trace t) :
    ∀ r ∈ trace.dropLast, r.stillRunning = true := by
  induction h with
  | limit | stop => exact List.forall_mem_nil _
  | @goOn _ _ _ _ _ trace hstep hret hgoes _ ih =>
    cases trace with
    | nil => exact List.forall_mem_nil _
    | cons r' trace => exact List.forall_mem_cons.2 ⟨(step_stillRunning hstep hret).trans hgoes, ih⟩

end runs

theorem State.ctrl_of_not_running {s : State} (h : s.running = false) : s.ctrl = .halted ∨ s.ctrl = .faulted := by
  cases hc : s.ctrl <;> simp_all [State.running]

/-- Settles O52: the model's run is a `HostRuns`, and each clause is an induction over it. -/
theorem hostRunEndsWhenNotRunning : Obligations.HostRunEndsWhenNotRunning := by
  intro k s
  obtain ⟨t, ht, hruns⟩ := hostRun_hostRuns k s
  refine ⟨t, ht, hruns.length_le, fun hlt => State.ctrl_of_not_running (hruns.stopped_of_length_lt hlt), fun r hr => ?_,
    hruns.stillRunning_of_mem_dropLast⟩
  have hlast := hruns.last_stillRunning (r := { ran := false, stillRunning := s.running, event := .none }) rfl
  rwa [List.getLastD_eq_getLast?, hr] at hlast

/-! ## The count of executed instructions (R111) -/

theorem executionEvent_ne_skip (s : State) (i : Instr) : executionEvent s i ≠ .skip := by
  cases i with
  | div n => by_cases hz : operandWord s n = 0#32 <;> simp [executionEvent, hz]
  | _ => simp [executionEvent]

theorem State.executesNext_iff (s : State) :
    s.executesNext = true ↔ s.ctrl = .running ∧ s.pc ≠ 0 ∧ s.pc.toNat < s.memSize.words := by
  simp [State.executesNext, State.running, and_assoc]

/-- A step that runs a cycle either executes an instruction or skips. -/
theorem State.nextReport_ran (s : State) :
    (if s.nextReport.1 then 1 else 0) =
      s.executesNext.toNat + if decide (s.nextReport.2 = .skip) then 1 else 0 := by
  by_cases hexec : s.executesNext = true
  · obtain ⟨hr, hpc, hlt⟩ := s.executesNext_iff.1 hexec
    simp [State.nextReport_of_executes ⟨hr, hpc, hlt, rfl⟩, hexec, executionEvent_ne_skip]
  · have hnot := mt s.executesNext_iff.2 hexec
    rw [Bool.eq_false_of_not_eq_true hexec]
    by_cases hr : s.ctrl = .running
    · by_cases hpc : s.pc = 0
      · rw [State.nextReport_of_zero hr hpc]
        rfl
      · rw [State.nextReport_of_out_of_range hr (Nat.not_lt.1 fun hlt => hnot ⟨hr, hpc, hlt⟩)]
        rfl
    · rw [State.nextReport_of_stopped hr]
      rfl

/-- The ran steps of a run are those that executed an instruction and the skips. -/
theorem countP_ran_hostTrace (k : Nat) (s : State) :
    (hostTrace k s).countP (fun r => r.ran) =
      executingStates k s + (hostTrace k s).countP (fun r => r.event = .skip) := by
  induction k generalizing s with
  | zero => rfl
  | succ k ih =>
    obtain ⟨t, ht, -⟩ := step_cases s
    rw [hostTrace_succ k ht, executingStates_succ k ht, List.countP_cons, List.countP_cons]
    dsimp only
    rw [s.nextReport_ran]
    by_cases hrun : t.running = true
    · rw [if_pos hrun, if_pos hrun, ih t]
      omega
    · rw [if_neg hrun, if_neg hrun, List.countP_nil, List.countP_nil]
      omega

/-- Settles O53: the skips are among the ran steps, so the natural subtraction is exact. -/
theorem instructionCountIsRanLessSkips : Obligations.InstructionCountIsRanLessSkips := by
  intro k s
  rw [instructionsExecuted, countP_ran_hostTrace, Nat.add_sub_cancel]

/-! ## The assembled file (R90, R234) -/

theorem parseFile_fileText {size : Nat} {ws : List Word} (h : ws.length ≤ size) :
    parseFile size (fileText ws) = some ws := by
  rw [parseFile, splitLines_fileText, parseLines_map_wordText]
  exact if_pos h

/-- Settles O58: the file's lines parse back to the words, which stand in memory from address 0 on. -/
theorem assembledFileLoads : Obligations.AssembledFileLoads := by
  intro source out m k h hfits
  obtain ⟨ws, hws, hlen, rfl⟩ := assemble_ok h
  refine ⟨ws, _, hws, hlen, load_of_parse (State.isFresh_create m k) (parseFile_fileText (hlen ▸ hfits)), fun a => ?_⟩
  refine (Memory.read_place rfl 0 ws a).trans ?_
  rw [if_pos a.zero_le, Nat.sub_zero, List.getD_eq_getElem?_getD]
  rfl

end Sys2Proof.Machine
end
